-- ==== Sys2Proof/Word.lean ====
section
/-! DEFINITION. The word, byte and block types of panama_state_machine (00_scope R6, R9; 10_state R34). -/

namespace Sys2Proof

/-- A 32-bit unsigned word, bit 31 the most significant (00_scope R9). -/
abbrev Word := BitVec 32

/-- One byte of a data block. -/
abbrev Byte := BitVec 8

/-- A block: 32 bytes, byte 0 first, the unit of every data port (00_scope R9, R12). -/
abbrev Block := Vector Byte 32

/-- A stage of the circular buffer: 8 words (10_state R17). -/
abbrev Stage := Vector Word 8

end Sys2Proof
end

