-- ==== Sys2Proof/Syntax.lean ====
section
/-! DEFINITION. The thirteen commands, one constructor per row of the opcode table (30_encoding R62). -/

namespace Sys2Proof

/-- A command with its operands. Every operand is an unsigned integer taken directly from its bits, or a presence
flag (30_encoding R61). -/
inductive Instr where
  /-- `CLR`: return to the zero state (41_core_commands R94) -/
  | clr
  /-- `PULL count`: blank pull rounds (R95) -/
  | pull (count : Nat)
  /-- `PUSH count`: push rounds, no output (R96) -/
  | push (count : Nat)
  /-- `PULLO count`: pull rounds with raw output (R97) -/
  | pullo (count : Nat)
  /-- `PUSHO count`: push rounds with raw output (R99) -/
  | pusho (count : Nat)
  /-- `PULLX count`: pull rounds with masked output (R98) -/
  | pullx (count : Nat)
  /-- `PUSHX count`: push rounds with masked output (R100) -/
  | pushx (count : Nat)
  /-- `HFINAL dsize len`: pad, absorb, mix, squeeze, truncate, zeroise (42_hash_adapter R108) -/
  | hfinal (dsize len : Nat)
  /-- `SETKEY klen`: store the key (43_cipher_adapter R116) -/
  | setkey (klen : Nat)
  /-- `RESYNC ivp`: load key and IV and mix (R118) -/
  | resync (ivp : Bool)
  /-- `KSGEN count`: raw keystream (R122) -/
  | ksgen (count : Nat)
  /-- `KSXOR count`: keystream onto data (R123) -/
  | ksxor (count : Nat)
  /-- `HUPDATE count`: absorb full message blocks (42_hash_adapter R106) -/
  | hupdate (count : Nat)
deriving DecidableEq, Repr

end Sys2Proof
end

