-- ==== Sys2Proof/WellFormed.lean ====
section
/-! DEFINITION. Which operand values a command word can carry: the width of each field (30_encoding R57 to R60).
A value that is encodable but refused by the command itself (`DSIZE = 0`, `KLEN = 16`) is well formed (R66). -/

namespace Sys2Proof

/-- `COUNT` is 16 bits, `DSIZE` and `KLEN` 8, `LEN` 5, `IVP` one (30_encoding R57 to R60). -/
def WellFormed : Instr → Bool
  | .clr => true
  | .pull count => decide (count < 65536)
  | .push count => decide (count < 65536)
  | .pullo count => decide (count < 65536)
  | .pusho count => decide (count < 65536)
  | .pullx count => decide (count < 65536)
  | .pushx count => decide (count < 65536)
  | .hfinal dsize len => decide (dsize < 256) && decide (len < 32)
  | .setkey klen => decide (klen < 256)
  | .resync _ => true
  | .ksgen count => decide (count < 65536)
  | .ksxor count => decide (count < 65536)
  | .hupdate count => decide (count < 65536)

end Sys2Proof
end

