-- ==== Sys2Proof/Decode.lean ====
section
/-! DEFINITION. The command decoder, total on 32-bit words (30_encoding R68), the encoder written from the same
formats (R55 to R60), and the opcode map's match and mask words (R62). A command word is a 32-bit value and has no byte
order (20_memory R43), so the decoder reads the word itself. -/

namespace Sys2Proof

/-- Why a word is no command (30_encoding R63 to R65). The names are the model's own: every one is answered with the
same `ERR_ILLEGAL` (60_exceptions R140). -/
inductive Illegal where
  /-- the opcode selects no command (R63) -/
  | reservedOpcode
  /-- a reserved bit of the format is set (R64) -/
  | reservedBits
  /-- a reserved combination of `MSK`, `OUT`, `ABS` (R65) -/
  | reservedFlags
deriving DecidableEq, Repr

/-- `w[hi:lo]`, the bit slice as an unsigned number (00_scope R9). -/
def field (w : Word) (hi lo : Nat) : Nat := w.toNat / 2 ^ lo % 2 ^ (hi + 1 - lo)

/-- `decode(w)` of 30_encoding R68: the command, or why the word is illegal. -/
def decode (w : Word) : Except Illegal Instr :=
  match field w 31 28 with
  | 0x1 => if field w 27 0 = 0 then .ok .clr else .error .reservedBits
  | 0x2 =>
    if field w 27 27 ≠ 0 ∨ field w 23 16 ≠ 0 then .error .reservedBits
    else match field w 26 24 with
      | 0b000 => .ok (.pull (field w 15 0))
      | 0b001 => .ok (.push (field w 15 0))
      | 0b010 => .ok (.pullo (field w 15 0))
      | 0b011 => .ok (.pusho (field w 15 0))
      | 0b110 => .ok (.pullx (field w 15 0))
      | 0b111 => .ok (.pushx (field w 15 0))
      | _ => .error .reservedFlags
  | 0x3 =>
    if field w 27 16 ≠ 0 ∨ field w 7 5 ≠ 0 then .error .reservedBits
    else .ok (.hfinal (field w 15 8) (field w 4 0))
  | 0x4 => if field w 27 8 ≠ 0 then .error .reservedBits else .ok (.setkey (field w 7 0))
  | 0x5 => if field w 27 1 ≠ 0 then .error .reservedBits else .ok (.resync (decide (field w 0 0 = 1)))
  | 0x6 =>
    if field w 27 27 ≠ 0 ∨ field w 23 16 ≠ 0 then .error .reservedBits
    else if field w 25 24 ≠ 0 then .error .reservedFlags
    else if field w 26 26 = 0 then .ok (.ksgen (field w 15 0)) else .ok (.ksxor (field w 15 0))
  | 0x7 =>
    if field w 27 27 ≠ 0 ∨ field w 23 16 ≠ 0 then .error .reservedBits
    else if field w 26 24 ≠ 0 then .error .reservedFlags
    else .ok (.hupdate (field w 15 0))
  | _ => .error .reservedOpcode

/-- The command of a table word: 32 bits, the bits above `nbits` zero; `none` where the decoder refuses. -/
def decodeTableWord (nbits w : Nat) : Option Instr := (decode (BitVec.ofNat 32 (w % 2 ^ nbits))).toOption

/-- Format I (30_encoding R57): `OPC`, the flag bits `MSK`, `OUT`, `ABS` of the word, `COUNT`. -/
def formatI (opc msk out abs count : Nat) : Word :=
  BitVec.ofNat 32 (opc * 2 ^ 28 + msk * 2 ^ 26 + out * 2 ^ 25 + abs * 2 ^ 24 + count)

/-- The word of a well-formed command (30_encoding R55 to R62). -/
def encode : Instr → Word
  | .clr => BitVec.ofNat 32 (0x1 * 2 ^ 28)
  | .pull count => formatI 0x2 0 0 0 count
  | .push count => formatI 0x2 0 0 1 count
  | .pullo count => formatI 0x2 0 1 0 count
  | .pusho count => formatI 0x2 0 1 1 count
  | .pullx count => formatI 0x2 1 1 0 count
  | .pushx count => formatI 0x2 1 1 1 count
  | .hfinal dsize len => BitVec.ofNat 32 (0x3 * 2 ^ 28 + dsize * 2 ^ 8 + len)
  | .setkey klen => BitVec.ofNat 32 (0x4 * 2 ^ 28 + klen)
  | .resync ivp => BitVec.ofNat 32 (0x5 * 2 ^ 28 + if ivp then 1 else 0)
  | .ksgen count => formatI 0x6 0 0 0 count
  | .ksxor count => formatI 0x6 1 0 0 count
  | .hupdate count => formatI 0x7 0 0 0 count

/-- The thirteen mnemonics of the opcode map (30_encoding R62). -/
inductive Mnemonic where
  | clr | pull | push | pullo | pusho | pullx | pushx | hfinal | setkey | resync | ksgen | ksxor | hupdate
deriving DecidableEq, Repr

/-- The mnemonic of a command: its row of the opcode map. -/
def mnemonicOf : Instr → Mnemonic
  | .clr => .clr
  | .pull _ => .pull
  | .push _ => .push
  | .pullo _ => .pullo
  | .pusho _ => .pusho
  | .pullx _ => .pullx
  | .pushx _ => .pushx
  | .hfinal _ _ => .hfinal
  | .setkey _ => .setkey
  | .resync _ => .resync
  | .ksgen _ => .ksgen
  | .ksxor _ => .ksxor
  | .hupdate _ => .hupdate

/-- The column `match` of 30_encoding R62. -/
def matchWord : Mnemonic → Word
  | .clr => 0x10000000#32
  | .pull => 0x20000000#32
  | .push => 0x21000000#32
  | .pullo => 0x22000000#32
  | .pusho => 0x23000000#32
  | .pullx => 0x26000000#32
  | .pushx => 0x27000000#32
  | .hfinal => 0x30000000#32
  | .setkey => 0x40000000#32
  | .resync => 0x50000000#32
  | .ksgen => 0x60000000#32
  | .ksxor => 0x64000000#32
  | .hupdate => 0x70000000#32

/-- The column `mask` of 30_encoding R62. -/
def maskWord : Mnemonic → Word
  | .clr => 0xFFFFFFFF#32
  | .pull | .push | .pullo | .pusho | .pullx | .pushx => 0xFFFF0000#32
  | .hfinal => 0xFFFF00E0#32
  | .setkey => 0xFFFFFF00#32
  | .resync => 0xFFFFFFFE#32
  | .ksgen | .ksxor | .hupdate => 0xFFFF0000#32

end Sys2Proof
end

