-- ==== Sys2Proof/Config.lean ====
section
/-! DEFINITION. What the spec leaves to each built copy of the block (00_scope R7) and the environment's input
(10_state R27). Each is a constant without a body: nothing can be proved of its value. -/

namespace Sys2Proof

/-- The byte-order policy `ENDIAN` (00_scope R7, 20_memory R41). -/
inductive Endian where
  /-- little-endian: the first byte is the least significant -/
  | le
  /-- big-endian: the first byte is the most significant -/
  | be
deriving DecidableEq, Repr, Inhabited

/-- DESIGN CHOICE (log entry 1): the policy of the copy that `State.reset` describes. The spec gives no default
(91_not_in_source N2), so the value is free. -/
opaque Config.endian : Endian

/-- DESIGN CHOICE (log entry 2): whether the copy that `State.reset` describes contains the fast path (00_scope R7). -/
opaque Config.hasFastpath : Bool

/-- DESIGN CHOICE (log entry 2): the level of the input `fast_avail` after reset; a free input (10_state R27). -/
opaque Config.fastAvail : Bool

end Sys2Proof
end

