-- ==== Sys2Proof/Machine/State.lean ====
section
/-! DEFINITION. The state of panama_state_machine as plain data (10_state R13 to R34), the reasons a step could stop,
and the state right after hardware reset (10_state R30, 70_reset_and_hazards R154). -/

namespace Sys2Proof.Machine

/-- The document's instance state `{A, B, stage pointer}` (10_state R22), which every round transforms. -/
structure Engine where
  /-- state register A, `a(0)` to `a(16)`, by logical index (10_state R13, R14) -/
  a : Vector Word 17
  /-- circular buffer B, `B[s][j]` (10_state R17, R19) -/
  b : Vector Stage 32
  /-- stage pointer P, the physical address of the current stage (10_state R18) -/
  p : Fin 32
deriving DecidableEq, Repr

/-- The zero state: all of A, all of B and the stage pointer zero (00_scope R12, 10_state R31). -/
def Engine.zero : Engine :=
  { a := Vector.replicate 17 0#32, b := Vector.replicate 32 (Vector.replicate 8 0#32), p := 0 }

/-- The sequencer's phase with the latched command (10_state R23, R28). The command is latched in decoded form
(DESIGN CHOICE, log entry 6). -/
inductive Phase where
  /-- between commands -/
  | idle
  /-- a command has been latched and has not responded yet -/
  | busy (latched : Instr)
deriving DecidableEq, Repr

/-- The sequencer (10_state R23, R28): hidden state, read by no later command. -/
structure Sequencer where
  /-- idle, or busy with the latched command -/
  phase : Phase
  /-- `RC`, the rounds the latched command still has to run -/
  rc : BitVec 16
  /-- the absorb block a `PUSHX` round has popped while its mask block is not there yet (DEDUCED, log entry 5) -/
  held : Option Block
  /-- the sample of `fast_avail` the latched command took at its start (10_state R27, R28) -/
  fastSample : Option Bool
deriving DecidableEq, Repr

/-- The idle sequencer: `RC = 0`, no latched command (10_state R30), nothing a later command can read (R23). -/
def Sequencer.idle : Sequencer := { phase := .idle, rc := 0#16, held := none, fastSample := none }

/-- One entry of `dout`: a block and its byte count (20_memory R48). -/
structure OutEntry where
  /-- the 32-byte block -/
  blk : Block
  /-- the 6-bit byte count, 1 to 32 -/
  n : BitVec 6
deriving DecidableEq, Repr

/-- The whole machine: the architectural state `{A, B, P, K, KV}` (10_state R22), the sequencer (R23), the ports (R26)
and the two build parameters (00_scope R7). -/
structure State where
  /-- `{A, B, P}` -/
  eng : Engine
  /-- the key register K (10_state R20) -/
  k : Block
  /-- the key-valid flag KV (10_state R21) -/
  kv : Bool
  /-- the sequencer -/
  seq : Sequencer
  /-- the command port, head first -/
  cmd : List Word
  /-- the data-in port, head first (20_memory R47) -/
  din : List Block
  /-- the data-out port, oldest first (20_memory R48) -/
  dout : List OutEntry
  /-- the response port, oldest first (60_exceptions R137) -/
  resp : List (BitVec 3)
  /-- hardware reset asserted and not yet acted on (DESIGN CHOICE, log entry 9) -/
  rst : Bool
  /-- the capability gate input (10_state R27; DESIGN CHOICE, log entry 2) -/
  fastAvail : Bool
  /-- the build parameter `ENDIAN`, written by nothing (20_memory R45; DESIGN CHOICE, log entry 1) -/
  endian : Endian
  /-- the build parameter `HAS_FASTPATH`, written by nothing (00_scope R7; DESIGN CHOICE, log entry 2) -/
  hasFastpath : Bool
deriving DecidableEq, Repr

/-- The machine has no fault: the spec gives every word, every state and every error an effect (30_encoding R67,
40_round_engine R91, 60_exceptions R139, R144; log entry 17). Nothing raises one; that no step stops is safe or unsafe
only as the effects themselves are. -/
inductive Fault where
deriving DecidableEq, Repr

/-- The one refusal the package's form asks for. -/
inductive Refusal where
  /-- Raised by an arm of `exec` for a command without a meaning: none is left, so nothing raises it. Safe. -/
  | notModelled (mnemonic : String)
deriving DecidableEq, Repr

/-- Right after hardware reset (10_state R30): zero state, key zero and not valid, sequencer idle, all queues empty. The
build parameters and the input `fast_avail` are the free values of `Config` (log entries 1 and 2). -/
def State.reset : State :=
  { eng := Engine.zero, k := Vector.replicate 32 0#8, kv := false, seq := Sequencer.idle,
    cmd := [], din := [], dout := [], resp := [], rst := false,
    fastAvail := Config.fastAvail, endian := Config.endian, hasFastpath := Config.hasFastpath }

end Sys2Proof.Machine
end

