-- ==== Sys2Proof/Machine/Flags.lean ====
section
/-! DEFINITION. The flags of the block. It has no condition codes and no sticky status (10_state R24): its flags are the
presence flags ABS, OUT, MSK of an iterate command (30_encoding R57), the key-valid flag KV (10_state R21), and the
response code that reports a command's outcome (60_exceptions R137). -/

namespace Sys2Proof.Machine

/-- The presence flags of `iterate(n, absorb?, output?, mask?)` (30_encoding R57, 40_round_engine R90). -/
structure Streams where
  /-- each round absorbs a block: push mode -/
  abs : Bool
  /-- each round emits an output block -/
  out : Bool
  /-- a mask block is supplied for each round; only together with `out` (30_encoding R65) -/
  msk : Bool
deriving DecidableEq, Repr

/-- No stream: blank pull rounds (00_scope R12). -/
def blankPull : Streams := { abs := false, out := false, msk := false }

/-- Absorb only (41_core_commands R96). -/
def pushOnly : Streams := { abs := true, out := false, msk := false }

/-- Raw output only (41_core_commands R97). -/
def pullOut : Streams := { abs := false, out := true, msk := false }

/-- Masked output only (41_core_commands R98). -/
def pullMasked : Streams := { abs := false, out := true, msk := true }

/-- Absorb and raw output (41_core_commands R99). -/
def pushOut : Streams := { abs := true, out := true, msk := false }

/-- Absorb and masked output (41_core_commands R100). -/
def pushMasked : Streams := { abs := true, out := true, msk := true }

/-- The outcomes a response reports (60_exceptions R137). -/
inductive Response where
  /-- the command was carried out in full -/
  | ok
  /-- the word is none of the thirteen commands -/
  | errIllegal
  /-- `HFINAL` with `DSIZE` not in 1..32 -/
  | errTrunc
  /-- `SETKEY` with `KLEN` not 32 -/
  | errKeylen
  /-- `RESYNC` with `KV = 0` -/
  | errNokey
deriving DecidableEq, Repr

/-- The 3-bit code of a response (60_exceptions R137). -/
def responseCode : Response → BitVec 3
  | .ok => 0#3
  | .errIllegal => 1#3
  | .errTrunc => 2#3
  | .errKeylen => 3#3
  | .errNokey => 4#3

/-- `HFINAL`'s precondition `1 <= DSIZE <= 32` (42_hash_adapter R108). -/
def dsizeLegal (dsize : Nat) : Bool := decide (1 ≤ dsize) && decide (dsize ≤ 32)

/-- `SETKEY`'s precondition `KLEN = 32` (43_cipher_adapter R116). -/
def klenLegal (klen : Nat) : Bool := decide (klen = 32)

/-- The key register after a successful `SETKEY`, with KV set (43_cipher_adapter R116). -/
def storeKey (key : Block) (s : State) : State := { s with k := key, kv := true }

end Sys2Proof.Machine
end

