-- ==== Sys2Proof/Machine/Operands.lean ====
section
/-! DEFINITION. How the bytes of a block become words and words become bytes (20_memory R41, R42), and the block forms
of the hash adapter's operands: the padded final block (42_hash_adapter R110) and the truncated digest (R113). -/

namespace Sys2Proof.Machine

/-- Byte `4i + j` of a block. -/
def byteOf (blk : Block) (i : Fin 8) (j : Fin 4) : Byte := blk.get ⟨4 * i.val + j.val, by omega⟩

/-- `word(blk, i)` under `ENDIAN` (20_memory R41). -/
def word (e : Endian) (blk : Block) (i : Fin 8) : Word :=
  let b0 := (byteOf blk i 0).setWidth 32
  let b1 := (byteOf blk i 1).setWidth 32
  let b2 := (byteOf blk i 2).setWidth 32
  let b3 := (byteOf blk i 3).setWidth 32
  match e with
  | .le => b0 ||| b1 <<< 8 ||| b2 <<< 16 ||| b3 <<< 24
  | .be => b0 <<< 24 ||| b1 <<< 16 ||| b2 <<< 8 ||| b3

/-- The eight words of a block. -/
def blockWords (e : Endian) (blk : Block) : Stage := Vector.ofFn fun i => word e blk i

/-- Byte `j` of `bytes(w)` under `ENDIAN` (20_memory R42). -/
def byteOfWord (e : Endian) (w : Word) (j : Fin 4) : Byte :=
  match e with
  | .le => w.extractLsb' (8 * j.val) 8
  | .be => w.extractLsb' (24 - 8 * j.val) 8

/-- Eight words as an output block: word `i` occupies bytes `4i` to `4i+3` (20_memory R42). -/
def wordsBlock (e : Endian) (ws : Stage) : Block :=
  Vector.ofFn fun k => byteOfWord e (ws.get ⟨k.val / 4, by omega⟩) ⟨k.val % 4, by omega⟩

/-- Byte-wise XOR of two blocks (20_memory R44). -/
def xorBlock (x y : Block) : Block := Vector.ofFn fun k => x.get k ^^^ y.get k

/-- The block of 32 zero bytes: an absent IV (43_cipher_adapter R119). -/
def zeroBlock : Block := Vector.replicate 32 0#8

/-- `PAD_BYTE`, the hash padding terminator (00_scope R6). -/
def padByte : Byte := 0x01#8

/-- The padded final block: `len` message bytes, the terminator, zero bytes (42_hash_adapter R110). -/
def padBlock (len : Nat) (f : Block) : Block :=
  Vector.ofFn fun k => if k.val < len then f.get k else if k.val = len then padByte else 0#8

/-- The truncated digest: the first `dsize` bytes of `o`, then zero bytes (42_hash_adapter R113). -/
def truncateBlock (dsize : Nat) (o : Block) : Block :=
  Vector.ofFn fun k => if k.val < dsize then o.get k else 0#8

end Sys2Proof.Machine
end

