-- ==== Sys2Proof/Machine/Round.lean ====
section
/-! DEFINITION. The round function (40_round_engine R73 to R91): a total, deterministic function of `{A, B, P}`, the
absorb block, the output flag and the mask block. Logical indices of A and C are `Fin 17`, stage addresses `Fin 32`, words
of a stage `Fin 8`, so index arithmetic is modulo 17, 32 and 8 as the rules write it. -/

namespace Sys2Proof.Machine

/-- `rotl(x, r)` (00_scope R10). -/
def rotl (x : Word) (r : Nat) : Word := x.rotateLeft r

/-- `T(k)`, the k-th triangular number (00_scope R10). -/
def triangular (k : Nat) : Nat := k * (k + 1) / 2

/-- The rotation amount `T(k) mod 32` of destination `k` (40_round_engine R82). -/
def rotAmount (k : Fin 17) : Nat := triangular k.val % 32

/-- Stage "b16": +16 from the current pointer (20_memory R36). -/
def stage16 (p : Fin 32) : Fin 32 := p + 16

/-- Stage "b4": -4 from the current pointer (20_memory R36). -/
def stage4 (p : Fin 32) : Fin 32 := p - 4

/-- The new pointer `p' = (p + 1) mod 32` (40_round_engine R77). -/
def nextStage (p : Fin 32) : Fin 32 := p + 1

/-- Stage "b0": offset 0 from the new pointer (20_memory R36). -/
def stage0 (p : Fin 32) : Fin 32 := nextStage p

/-- Stage "b25": -25 from the new pointer (20_memory R36). -/
def stage25 (p : Fin 32) : Fin 32 := nextStage p - 25

/-- Words `a(1)` to `a(8)`, fed to the buffer in pull mode (40_round_engine R79). -/
def feedWords (a : Vector Word 17) : Stage := Vector.ofFn fun i => a.get ⟨i.val + 1, by omega⟩

/-- Words `a(9)` to `a(16)`, the output words (40_round_engine R75). -/
def outWords (a : Vector Word 17) : Stage := Vector.ofFn fun i => a.get ⟨i.val + 9, by omega⟩

/-- Step 1: the output block, from A before the round changes it, XORed with the mask if there is one (R75). -/
def roundOutput (e : Endian) (msk : Option Block) (g : Engine) : Block :=
  let raw := wordsBlock e (outWords g.a)
  match msk with
  | none => raw
  | some m => xorBlock raw m

/-- Step 2: the buffer update with the eight injected words `x` (R78, R79), in the closed form of R78. -/
def bufferUpdate (x : Stage) (p : Fin 32) (b : Vector Stage 32) : Vector Stage 32 :=
  let t := b.get (stage0 p)
  let b0 : Stage := Vector.ofFn fun i => x.get i ^^^ t.get i
  let b25 : Stage := Vector.ofFn fun j => (b.get (stage25 p)).get j ^^^ t.get (j + 2)
  (b.set (stage0 p).val b0 (stage0 p).isLt).set (stage25 p).val b25 (stage25 p).isLt

/-- Gamma, the nonlinear step (R80). -/
def gamma (a : Vector Word 17) : Vector Word 17 :=
  Vector.ofFn fun i => a.get i ^^^ (a.get (i + 1) ||| ~~~ (a.get (i + 2)))

/-- Pi, the word permutation with rotation, by destination: `c(k) = rotl(g(7k mod 17), T(k) mod 32)` (R81). -/
def piStep (g : Vector Word 17) : Vector Word 17 :=
  Vector.ofFn fun k => rotl (g.get (7 * k)) (rotAmount k)

/-- Theta, the linear diffusion (R83). -/
def theta (c : Vector Word 17) : Vector Word 17 :=
  Vector.ofFn fun j => c.get j ^^^ c.get (j + 1) ^^^ c.get (j + 4)

/-- `SIGMA_CONST`, XORed into `a(0)` each round (00_scope R6, 40_round_engine R84). -/
def sigmaConst : Word := 0x00000001#32

/-- Sigma: the constant into word 0 (R84), `x` into words 1 to 8 (R85, R86), `y` into words 9 to 16 (R87). -/
def sigma (th : Vector Word 17) (x y : Stage) : Vector Word 17 :=
  Vector.ofFn fun j =>
    th.get j ^^^
      (if h0 : j.val = 0 then sigmaConst
       else if h8 : j.val ≤ 8 then x.get ⟨j.val - 1, by omega⟩
       else y.get ⟨j.val - 9, by omega⟩)

/-- Steps 2 to 4: the engine after one round, in push mode with the absorb block or in pull mode without (R73). Steps 3
and 4 read A and the stages `b4` and `b16` as they were before the round (R74, R86, R87). -/
def roundEngine (e : Endian) (abs : Option Block) (g : Engine) : Engine :=
  let inject : Stage := match abs with
    | none => feedWords g.a
    | some q => blockWords e q
  let x : Stage := match abs with
    | none => g.b.get (stage4 g.p)
    | some q => blockWords e q
  { a := sigma (theta (piStep (gamma g.a))) x (g.b.get (stage16 g.p))
    b := bufferUpdate inject g.p g.b
    p := nextStage g.p }

/-- `Round(abs, out, msk)` (40_round_engine R73): the engine after the round, and the output block if `out`. -/
def round (e : Endian) (abs : Option Block) (out : Bool) (msk : Option Block) (g : Engine) : Engine × Option Block :=
  (roundEngine e abs g, if out then some (roundOutput e msk g) else none)

/-- `n` blank pull rounds (00_scope R12). -/
def blankRounds (e : Endian) : Nat → Engine → Engine
  | 0, g => g
  | n + 1, g => blankRounds e n (round e none false none g).1

/-- `MIX_ROUNDS` (00_scope R6). -/
def mixRounds : Nat := 32

end Sys2Proof.Machine
end

