-- ==== Sys2Proof/Machine/Ops.lean ====
section
/-! DEFINITION. The named operations of the block on its state: the two ports its commands move blocks on, the
sequencer, the response, the error (which takes the place of an exception, 60_exceptions R147), Zeroise and hardware
reset. -/

namespace Sys2Proof.Machine

/-- `Zeroise()` (10_state R31): `{A, B, P}` to the zero state, nothing else. -/
def zeroise (s : State) : State := { s with eng := Engine.zero }

/-- `DinPop()` (20_memory R47): the head block of `din` and the state without it; `none` while `din` is empty. -/
def dinPop (s : State) : Option (Block × State) :=
  match s.din with
  | [] => none
  | q :: rest => some (q, { s with din := rest })

/-- `DoutPush(blk, n)` (20_memory R48). -/
def doutPush (blk : Block) (n : BitVec 6) (s : State) : State := { s with dout := s.dout ++ [⟨blk, n⟩] }

/-- `respond(code)` (60_exceptions R137). -/
def respond (r : Response) (s : State) : State := { s with resp := s.resp ++ [responseCode r] }

/-- The sequencer goes idle and forgets its command (10_state R23). -/
def goIdle (s : State) : State := { s with seq := Sequencer.idle }

/-- A command that has done all its work: `respond(OK)`, then idle (41_core_commands R93, 60_exceptions R138). -/
def finish (s : State) : State := goIdle (respond .ok s)

/-- `raise Err(code)` (60_exceptions R139): the response and nothing else; the block is idle afterwards (R148). -/
def raiseErr (r : Response) (s : State) : State := goIdle (respond r s)

/-- The sequencer latches a command with the rounds it has to run (10_state R23, 20_memory R53). -/
def latch (i : Instr) (rounds : Nat) (s : State) : State :=
  { s with seq := { phase := .busy i, rc := BitVec.ofNat 16 rounds, held := none, fastSample := none } }

/-- The capability gate is sampled once, only when the fast path is built (10_state R27, 43_cipher_adapter R126). -/
def sampleGate (s : State) : State :=
  { s with seq := { s.seq with fastSample := if s.hasFastpath then some s.fastAvail else none } }

/-- The command waits for a block with `rounds` rounds still to run (70_reset_and_hazards R164). -/
def waitBlock (rounds : Nat) (held : Option Block) (s : State) : State :=
  { s with seq := { s.seq with rc := BitVec.ofNat 16 rounds, held := held } }

/-- Hardware reset (70_reset_and_hazards R154): everything at its reset value; the build parameters and the input
`fast_avail` are not the block's to change. The request is consumed (log entry 9). -/
def hardwareReset (s : State) : State :=
  { State.reset with fastAvail := s.fastAvail, endian := s.endian, hasFastpath := s.hasFastpath }

/-- The sequencer takes the word at the head of `cmd` (41_core_commands R93); `none` while `cmd` is empty. -/
def takeCommand (s : State) : Option (Word × State) :=
  match s.cmd with
  | [] => none
  | w :: rest => some (w, { s with cmd := rest })

/-- Placing a command where the sequencer takes its next one from: `w` at the head of `cmd`, the sequencer idle, no reset
asserted (log entry 10). -/
def placeCommand (w : Word) (s : State) : State :=
  { s with rst := false, seq := Sequencer.idle, cmd := w :: s.cmd }

end Sys2Proof.Machine
end

