-- ==== Sys2Proof/Machine/Iterate.lean ====
section
/-! DEFINITION. `Iterate(n, ABS, OUT, MSK)` of 40_round_engine R90 on the machine: rounds in index order, each popping
its absorb block and then its mask block from `din` and pushing its output block to `dout`. A round that finds `din` empty
waits there: the rounds already done stand (70_reset_and_hazards R164), and the same definition, called again, goes on from
that point. -/

namespace Sys2Proof.Machine

/-- The absorb block of a round with the absorb stream: the block already held (log entry 5), else the head of `din`. -/
def takeAbsorb (s : State) : Option (Block × State) :=
  match s.seq.held with
  | some q => some (q, { s with seq := { s.seq with held := none } })
  | none => dinPop s

/-- One round with its blocks at hand: the engine moves, and the output block goes to `dout` if the round has one. -/
def roundStep (f : Streams) (abs msk : Option Block) (s : State) : State :=
  let r := round s.endian abs f.out msk s.eng
  let s1 := { s with eng := r.1 }
  match r.2 with
  | none => s1
  | some o => doutPush o 32#6 s1

/-- `n` rounds with the streams `f`, then `OK`; or the waiting state at the first block that is not there. -/
def iterate (f : Streams) : Nat → State → State
  | 0, s => finish s
  | n + 1, s =>
    if f.abs then
      match takeAbsorb s with
      | none => waitBlock (n + 1) none s
      | some (q, s1) =>
        if f.msk then
          match dinPop s1 with
          | none => waitBlock (n + 1) (some q) s1
          | some (m, s2) => iterate f n (roundStep f (some q) (some m) s2)
        else iterate f n (roundStep f (some q) none s1)
    else if f.msk then
      match dinPop s with
      | none => waitBlock (n + 1) none s
      | some (m, s1) => iterate f n (roundStep f none (some m) s1)
    else iterate f n (roundStep f none none s)

/-- The rounds `RC` still counts. -/
def runRounds (f : Streams) (s : State) : State := iterate f s.seq.rc.toNat s

end Sys2Proof.Machine
end

