-- ==== Sys2Proof/Machine/HashCommands.lean ====
section
/-! DEFINITION. The hash adapter commands HUPDATE and HFINAL (42_hash_adapter R106 to R114). -/

namespace Sys2Proof.Machine

/-- `HUPDATE`: absorb full message blocks (R106). -/
def hupdateBody (s : State) : State := runRounds pushOnly s

/-- `HUPDATE n` (42_hash_adapter R106). -/
def execHupdate (count : Nat) (s : State) : Host.Outcome State Fault Refusal :=
  .next (hupdateBody (latch (.hupdate count) count s))

/-- The full 32-byte digest: push the padded block, mix, squeeze (R109 to R112). What the squeeze round does to the engine
is dropped, since Zeroise follows at once (R112). -/
def digest (e : Endian) (pad : Block) (g : Engine) : Block :=
  roundOutput e none (blankRounds e mixRounds (round e (some pad) false none g).1)

/-- The rounds of `HFINAL` and of `RESYNC` (70_reset_and_hazards R168). -/
def fixedRounds : Nat := 34

/-- `HFINAL` once its precondition holds (R109); it waits while its final block is not there. -/
def hfinalBody (dsize len : Nat) (s : State) : State :=
  match dinPop s with
  | none => s
  | some (f, s1) =>
    let d := truncateBlock dsize (digest s1.endian (padBlock len f) s1.eng)
    finish (zeroise (doutPush d (BitVec.ofNat 6 dsize) s1))

/-- `HFINAL dsize, len` (42_hash_adapter R108): `ERR_TRUNC` unless `1 <= DSIZE <= 32`. -/
def execHfinal (dsize len : Nat) (s : State) : Host.Outcome State Fault Refusal :=
  if dsizeLegal dsize then .next (hfinalBody dsize len (latch (.hfinal dsize len) fixedRounds s))
  else .next (raiseErr .errTrunc s)

end Sys2Proof.Machine
end

