-- ==== Sys2Proof/Machine/CipherCommands.lean ====
section
/-! DEFINITION. The cipher adapter commands SETKEY, RESYNC, KSGEN, KSXOR (43_cipher_adapter R116 to R128). -/

namespace Sys2Proof.Machine

/-- `SETKEY` once its precondition holds (R116); it waits while the key block is not there. -/
def setkeyBody (s : State) : State :=
  match dinPop s with
  | none => s
  | some (key, s1) => finish (storeKey key s1)

/-- `SETKEY klen` (43_cipher_adapter R116): `ERR_KEYLEN` unless `KLEN = 32`. -/
def execSetkey (klen : Nat) (s : State) : Host.Outcome State Fault Refusal :=
  if klenLegal klen then .next (setkeyBody (latch (.setkey klen) 0 s))
  else .next (raiseErr .errKeylen s)

/-- The engine after a resynchronization: zero state, push the key, push the IV, mix (R118). -/
def resyncEngine (e : Endian) (key iv : Block) : Engine :=
  blankRounds e mixRounds
    (round e (some iv) false none (round e (some key) false none Engine.zero).1).1

/-- `RESYNC` with its IV at hand (R118). -/
def resyncWith (iv : Block) (s : State) : State := finish { s with eng := resyncEngine s.endian s.k iv }

/-- `RESYNC` after its checks and the sample of the gate (R118, R119); it waits while a supplied IV is not there. -/
def resyncBody (ivp : Bool) (s : State) : State :=
  if ivp then
    match dinPop s with
    | none => s
    | some (iv, s1) => resyncWith iv s1
  else resyncWith zeroBlock s

/-- `RESYNC ivp` (43_cipher_adapter R118): `ERR_NOKEY` unless `KV = 1` (R121). -/
def execResync (ivp : Bool) (s : State) : Host.Outcome State Fault Refusal :=
  if s.kv then .next (resyncBody ivp (sampleGate (latch (.resync ivp) fixedRounds s)))
  else .next (raiseErr .errNokey s)

/-- `KSGEN`: raw keystream (R122). -/
def ksgenBody (s : State) : State := runRounds pullOut s

/-- `KSGEN n` (43_cipher_adapter R122). -/
def execKsgen (count : Nat) (s : State) : Host.Outcome State Fault Refusal :=
  .next (ksgenBody (sampleGate (latch (.ksgen count) count s)))

/-- `KSXOR`: keystream onto data (R123). -/
def ksxorBody (s : State) : State := runRounds pullMasked s

/-- `KSXOR n` (43_cipher_adapter R123). -/
def execKsxor (count : Nat) (s : State) : Host.Outcome State Fault Refusal :=
  .next (ksxorBody (sampleGate (latch (.ksxor count) count s)))

end Sys2Proof.Machine
end

