-- ==== Sys2Proof/Machine/CoreCommands.lean ====
section
/-! DEFINITION. The core commands CLR, PULL, PUSH, PULLO, PULLX, PUSHO, PUSHX (41_core_commands R94 to R100). Each has a
body, the work that follows latching and that a waiting command resumes, and its meaning: latch, then the body. None has a
precondition (R93). -/

namespace Sys2Proof.Machine

/-- `CLR`: Zeroise (R94). -/
def clrBody (s : State) : State := finish (zeroise s)

/-- `CLR` (41_core_commands R94). -/
def execClr (s : State) : Host.Outcome State Fault Refusal := .next (clrBody (latch .clr 0 s))

/-- `PULL`: blank pull rounds (R95). -/
def pullBody (s : State) : State := runRounds blankPull s

/-- `PULL n` (41_core_commands R95). -/
def execPull (count : Nat) (s : State) : Host.Outcome State Fault Refusal :=
  .next (pullBody (latch (.pull count) count s))

/-- `PUSH`: push rounds without output (R96). -/
def pushBody (s : State) : State := runRounds pushOnly s

/-- `PUSH n` (41_core_commands R96). -/
def execPush (count : Nat) (s : State) : Host.Outcome State Fault Refusal :=
  .next (pushBody (latch (.push count) count s))

/-- `PULLO`: pull rounds with raw output (R97). -/
def pulloBody (s : State) : State := runRounds pullOut s

/-- `PULLO n` (41_core_commands R97). -/
def execPullo (count : Nat) (s : State) : Host.Outcome State Fault Refusal :=
  .next (pulloBody (latch (.pullo count) count s))

/-- `PUSHO`: push rounds with raw output (R99). -/
def pushoBody (s : State) : State := runRounds pushOut s

/-- `PUSHO n` (41_core_commands R99). -/
def execPusho (count : Nat) (s : State) : Host.Outcome State Fault Refusal :=
  .next (pushoBody (latch (.pusho count) count s))

/-- `PULLX`: pull rounds with masked output (R98). -/
def pullxBody (s : State) : State := runRounds pullMasked s

/-- `PULLX n` (41_core_commands R98). -/
def execPullx (count : Nat) (s : State) : Host.Outcome State Fault Refusal :=
  .next (pullxBody (latch (.pullx count) count s))

/-- `PUSHX`: push rounds with masked output (R100). -/
def pushxBody (s : State) : State := runRounds pushMasked s

/-- `PUSHX n` (41_core_commands R100). -/
def execPushx (count : Nat) (s : State) : Host.Outcome State Fault Refusal :=
  .next (pushxBody (latch (.pushx count) count s))

end Sys2Proof.Machine
end

