-- ==== Sys2Proof/Machine/Dispatch.lean ====
section
/-! DEFINITION. The dispatch: one arm per command, each one call of its meaning. -/

namespace Sys2Proof.Machine

/-- What a decoded command does when the sequencer takes it from `cmd` (41_core_commands R93). -/
def exec (i : Instr) (s : State) : Host.Outcome State Fault Refusal :=
  match i with
  | .clr => Sys2Proof.Machine.execClr s
  | .pull count => Sys2Proof.Machine.execPull count s
  | .push count => Sys2Proof.Machine.execPush count s
  | .pullo count => Sys2Proof.Machine.execPullo count s
  | .pusho count => Sys2Proof.Machine.execPusho count s
  | .pullx count => Sys2Proof.Machine.execPullx count s
  | .pushx count => Sys2Proof.Machine.execPushx count s
  | .hfinal dsize len => Sys2Proof.Machine.execHfinal dsize len s
  | .setkey klen => Sys2Proof.Machine.execSetkey klen s
  | .resync ivp => Sys2Proof.Machine.execResync ivp s
  | .ksgen count => Sys2Proof.Machine.execKsgen count s
  | .ksxor count => Sys2Proof.Machine.execKsxor count s
  | .hupdate count => Sys2Proof.Machine.execHupdate count s

end Sys2Proof.Machine
end

