-- ==== Sys2Proof/Machine/Resume.lean ====
section
/-! DEFINITION. How a busy sequencer goes on: the body of the latched command from where it waits
(70_reset_and_hazards R164). A command that finds its block still missing is left exactly as it was. -/

namespace Sys2Proof.Machine

/-- The rest of the latched command `i`; its checks were made, and the gate sampled, when it started (41 R93, 43 R126). -/
def resume (i : Instr) (s : State) : State :=
  match i with
  | .clr => clrBody s
  | .pull _ => pullBody s
  | .push _ => pushBody s
  | .pullo _ => pulloBody s
  | .pusho _ => pushoBody s
  | .pullx _ => pullxBody s
  | .pushx _ => pushxBody s
  | .hfinal dsize len => hfinalBody dsize len s
  | .setkey _ => setkeyBody s
  | .resync ivp => resyncBody ivp s
  | .ksgen _ => ksgenBody s
  | .ksxor _ => ksxorBody s
  | .hupdate _ => hupdateBody s

end Sys2Proof.Machine
end

