-- ==== Sys2Proof/Machine/Step.lean ====
section
/-! DEFINITION. One step of the block: hardware reset if it is asserted; else the busy command goes on; else the next
command word is taken from `cmd`, decoded and carried out; else nothing (41_core_commands R93, 20_memory R51). -/

namespace Sys2Proof.Machine

/-- One step. Reset wins over a running command (70_reset_and_hazards R156). An idle block with an empty `cmd` keeps all
its state (60_exceptions R152). A word that is no command is answered `ERR_ILLEGAL` (60_exceptions R140). -/
def step (s : State) : Host.Outcome State Fault Refusal :=
  if s.rst then .next (hardwareReset s)
  else match s.seq.phase with
    | .busy i => .next (resume i s)
    | .idle =>
      match takeCommand s with
      | none => .next s
      | some (w, s1) =>
        match decode w with
        | .error _ => .next (raiseErr .errIllegal s1)
        | .ok i => exec i s1

/-- `s` with the command word `w` (`nbits` bits, zero above) as the next one the sequencer takes (log entry 10). -/
def State.withFetchWord (s : State) (nbits w : Nat) : State := placeCommand (BitVec.ofNat 32 (w % 2 ^ nbits)) s

end Sys2Proof.Machine
end

