-- ==== Sys2Proof/Machine/FastPath.lean ====
section
/-! DEFINITION. The optional vectorized fast path as a second round function over the physical layout (44_fast_path R133,
R135). The machine does not call it: the scalar round is the definition (R135). It is here so that the equivalence the spec
demands (R131) can be stated. The slot arithmetic is worked out from the layout (DEDUCED, log entry 21). -/

namespace Sys2Proof.Machine

/-- The physical slot `(13*i + 16) mod 17` of logical word `i` (10_state R14). -/
def slotOf (i : Fin 17) : Fin 17 := 13 * i + 16

/-- The logical word that slot `t` holds (10_state R14, read the other way). -/
def logicalOf (t : Fin 17) : Fin 17 := 4 * t + 4

/-- `{A, B, P}` with A by physical slot (44_fast_path R133). -/
structure PhysEngine where
  /-- A by physical slot -/
  slots : Vector Word 17
  /-- circular buffer B -/
  b : Vector Stage 32
  /-- stage pointer P -/
  p : Fin 32
deriving DecidableEq, Repr

/-- The same registers seen by physical slot: no copy, no conversion (44_fast_path R133). -/
def toPhys (g : Engine) : PhysEngine :=
  { slots := Vector.ofFn fun t => g.a.get (logicalOf t), b := g.b, p := g.p }

/-- Gamma by slot: logical `i + 1` sits 13 slots on, `i + 2` sits 9 slots on. -/
def fastGamma (x : Vector Word 17) : Vector Word 17 :=
  Vector.ofFn fun t => x.get t ^^^ (x.get (t + 13) ||| ~~~ (x.get (t + 9)))

/-- Pi by slot: slot `t` receives slot `7*(t - 4)`, rotated by the amount of the logical word it holds. -/
def fastPi (x : Vector Word 17) : Vector Word 17 :=
  Vector.ofFn fun t => rotl (x.get (7 * (t - 4))) (rotAmount (logicalOf t))

/-- Theta by slot: the tap `c(i+4)` sits in the adjacent slot (44_fast_path R133). -/
def fastTheta (x : Vector Word 17) : Vector Word 17 :=
  Vector.ofFn fun t => x.get t ^^^ x.get (t + 13) ^^^ x.get (t + 1)

/-- Sigma by slot: slot 16 holds `a(0)`, the other slots hold the words fed by the stages `b4` and `b16`. -/
def fastSigma (x : Vector Word 17) (b4 b16 : Stage) : Vector Word 17 :=
  Vector.ofFn fun t =>
    x.get t ^^^
      (if h0 : (logicalOf t).val = 0 then sigmaConst
       else if h8 : (logicalOf t).val ≤ 8 then b4.get ⟨(logicalOf t).val - 1, by omega⟩
       else b16.get ⟨(logicalOf t).val - 9, by omega⟩)

/-- The fast path's pull round (44_fast_path R129). -/
def fastRound (g : PhysEngine) : PhysEngine :=
  let feed : Stage := Vector.ofFn fun i => g.slots.get (slotOf ⟨i.val + 1, by omega⟩)
  { slots := fastSigma (fastTheta (fastPi (fastGamma g.slots))) (g.b.get (stage4 g.p)) (g.b.get (stage16 g.p))
    b := bufferUpdate feed g.p g.b
    p := nextStage g.p }

/-- The fast path's output block, raw or masked (44_fast_path R129). -/
def fastOutput (e : Endian) (msk : Option Block) (g : PhysEngine) : Block :=
  let raw := wordsBlock e (Vector.ofFn fun i => g.slots.get (slotOf ⟨i.val + 9, by omega⟩))
  match msk with
  | none => raw
  | some m => xorBlock raw m

/-- `n` pull rounds on the fast path. -/
def fastRounds : Nat → PhysEngine → PhysEngine
  | 0, g => g
  | n + 1, g => fastRounds n (fastRound g)

end Sys2Proof.Machine
end

