-- ==== Sys2Proof/Machine/HostPort.lean ====
section
/-! DEFINITION. What the host and the environment do to the ports (10_state R26): inputs to the machine, taken between
steps, never by `step` (log entry 13). -/

namespace Sys2Proof.Machine

/-- The host places a command word on `cmd`, behind those already there. -/
def hostPushCmd (w : Word) (s : State) : State := { s with cmd := s.cmd ++ [w] }

/-- The host places blocks on `din`, in order, behind those already there. -/
def hostPushDin (blks : List Block) (s : State) : State := { s with din := s.din ++ blks }

/-- The host takes the oldest entry of `dout`. -/
def hostTakeDout (s : State) : Option (OutEntry × State) :=
  match s.dout with
  | [] => none
  | x :: rest => some (x, { s with dout := rest })

/-- The host takes the oldest response. -/
def hostTakeResp (s : State) : Option (BitVec 3 × State) :=
  match s.resp with
  | [] => none
  | r :: rest => some (r, { s with resp := rest })

/-- The host asserts `rst` (70_reset_and_hazards R154). -/
def hostAssertRst (s : State) : State := { s with rst := true }

/-- The environment drives `fast_avail` (10_state R27). -/
def envSetFastAvail (v : Bool) (s : State) : State := { s with fastAvail := v }

end Sys2Proof.Machine
end

