-- ==== Sys2Proof/Safety.lean ====
section
/-! DEFINITION. What holds in every state the block reaches (10_state R33, with 20_memory R48 and 60_exceptions R137), and
the terms in which claims say what a command computes: the engine after a list of pushed blocks, the keystream, the state
of a command carried out in full. -/

namespace Sys2Proof.Machine

/-- `KV = 0` implies `K` is all zero (10_state R33 c). -/
def KeyOk (s : State) : Prop := s.kv = false → s.k = zeroBlock

/-- A `dout` entry has a byte count in 1..32 and zero bytes from there on (20_memory R48). -/
def EntryOk (x : OutEntry) : Prop :=
  1 ≤ x.n.toNat ∧ x.n.toNat ≤ 32 ∧ ∀ k : Fin 32, x.n.toNat ≤ k.val → x.blk.get k = 0#8

/-- The codes 5, 6, 7 are never produced (60_exceptions R137). -/
def CodeOk (c : BitVec 3) : Prop := c.toNat ≤ 4

/-- An iterate command waits with 1 to `count` rounds to run. -/
def CountOk (count : Nat) (q : Sequencer) : Prop := 1 ≤ q.rc.toNat ∧ q.rc.toNat ≤ count

/-- The commands that sample the capability gate (43_cipher_adapter R126). -/
def samplesGate : Instr → Bool
  | .resync _ => true
  | .ksgen _ => true
  | .ksxor _ => true
  | _ => false

/-- What the sequencer may hold while command `i` waits: only commands that pop wait; their precondition held when they
started; only `PUSHX` holds an absorb block. -/
def WaitOk (i : Instr) (s : State) : Prop :=
  match i with
  | .push count => CountOk count s.seq ∧ s.seq.held = none
  | .pusho count => CountOk count s.seq ∧ s.seq.held = none
  | .pullx count => CountOk count s.seq ∧ s.seq.held = none
  | .pushx count => CountOk count s.seq
  | .ksxor count => CountOk count s.seq ∧ s.seq.held = none
  | .hupdate count => CountOk count s.seq ∧ s.seq.held = none
  | .hfinal dsize _ => 1 ≤ dsize ∧ dsize ≤ 32 ∧ s.seq.rc.toNat = 34 ∧ s.seq.held = none
  | .setkey klen => klen = 32 ∧ s.seq.rc.toNat = 0 ∧ s.seq.held = none
  | .resync ivp => ivp = true ∧ s.kv = true ∧ s.seq.rc.toNat = 34 ∧ s.seq.held = none
  | .clr => False
  | .pull _ => False
  | .pullo _ => False
  | .ksgen _ => False

/-- Idle holds nothing (10_state R23, R33 d); busy holds a well-formed command that can wait, and a sample of the gate exactly
when the fast path is built and the command samples it (10_state R27). -/
def SeqOk (s : State) : Prop :=
  match s.seq.phase with
  | .idle => s.seq = Sequencer.idle
  | .busy i =>
    WellFormed i = true ∧ WaitOk i s ∧ (s.seq.fastSample.isSome = (s.hasFastpath && samplesGate i))

/-- The invariant of the block. -/
def BlockInv (s : State) : Prop :=
  KeyOk s ∧ SeqOk s ∧ (∀ x ∈ s.dout, EntryOk x) ∧ (∀ c ∈ s.resp, CodeOk c)

/-- The engine after one round for each element of the list: a push round for a block, a pull round for `none`, in index
order (20_memory R51). -/
def roundsOver (e : Endian) : List (Option Block) → Engine → Engine
  | [], g => g
  | x :: xs, g => roundsOver e xs (round e x false none g).1

/-- The engine after push rounds with the blocks of the list, in order. -/
def pushAll (e : Endian) (qs : List Block) (g : Engine) : Engine := roundsOver e (qs.map some) g

/-- The raw output blocks of `n` pull rounds, in round order. -/
def keystream (e : Endian) : Nat → Engine → List Block
  | 0, _ => []
  | n + 1, g => roundOutput e none g :: keystream e n (round e none false none g).1

/-- The raw output blocks of push rounds with the blocks of the list: each shows the state before its round. -/
def pushOutputs (e : Endian) : List Block → Engine → List Block
  | [], _ => []
  | q :: qs, g => roundOutput e none g :: pushOutputs e qs (round e (some q) false none g).1

/-- Whole blocks as `dout` entries, each with byte count 32. -/
def fullEntries (bs : List Block) : List OutEntry := bs.map fun b => ⟨b, 32#6⟩

/-- The order in which `PUSHX` pops: per round the absorb block, then the mask block (20_memory R49). -/
def interleave (qms : List (Block × Block)) : List Block := qms.flatMap fun qm => [qm.1, qm.2]

/-- The state after a command carried out in full from `s`: engine `g`, `rest` left on `din`, the entries `outs` added to
`dout`, the response `OK`, the sequencer idle; all else as in `s`. -/
def completed (s : State) (g : Engine) (rest : List Block) (outs : List OutEntry) : State :=
  { s with eng := g, din := rest, dout := s.dout ++ outs, resp := s.resp ++ [0#3], seq := Sequencer.idle }

/-- The state after an error from `s`: the code, and nothing else (60_exceptions R139). -/
def errored (s : State) (code : BitVec 3) : State :=
  { s with resp := s.resp ++ [code], seq := Sequencer.idle }

/-- The state of a command that started in `s` and waits with `din` empty: engine `g`, the entries `outs` added, no
response. -/
def waiting (s : State) (g : Engine) (outs : List OutEntry) (q : Sequencer) : State :=
  { s with eng := g, din := [], dout := s.dout ++ outs, seq := q }

/-- The sample a command that consults the gate takes (10_state R27). -/
def gateSample (s : State) : Option Bool := if s.hasFastpath then some s.fastAvail else none

/-- The blocks a command pops when it ends `OK` (30_encoding R72). -/
def popsOf : Instr → Nat
  | .clr => 0
  | .pull _ => 0
  | .push count => count
  | .pullo _ => 0
  | .pusho count => count
  | .pullx count => count
  | .pushx count => 2 * count
  | .hupdate count => count
  | .hfinal _ _ => 1
  | .setkey _ => 1
  | .resync ivp => if ivp then 1 else 0
  | .ksgen _ => 0
  | .ksxor count => count

/-- The `dout` entries a command pushes when it ends `OK` (30_encoding R72). -/
def pushesOf : Instr → Nat
  | .clr => 0
  | .pull _ => 0
  | .push _ => 0
  | .pullo count => count
  | .pusho count => count
  | .pullx count => count
  | .pushx count => count
  | .hupdate _ => 0
  | .hfinal _ _ => 1
  | .setkey _ => 0
  | .resync _ => 0
  | .ksgen count => count
  | .ksxor count => count

/-- Bit `j` of a word with opcode `opc` is reserved by the opcode's format (30_encoding R64). -/
def reservedBit (opc j : Nat) : Bool :=
  match opc with
  | 0x1 => decide (j ≤ 27)
  | 0x2 | 0x6 | 0x7 => decide (j = 27) || (decide (16 ≤ j) && decide (j ≤ 23))
  | 0x3 => (decide (16 ≤ j) && decide (j ≤ 27)) || (decide (5 ≤ j) && decide (j ≤ 7))
  | 0x4 => decide (8 ≤ j) && decide (j ≤ 27)
  | 0x5 => decide (1 ≤ j) && decide (j ≤ 27)
  | _ => false

/-- Every idle block that takes the word `w` answers `ERR_ILLEGAL` and changes nothing else (60_exceptions R139, R140). -/
def AnswersIllegal (w : Word) : Prop :=
  ∀ (s : State) (rest : List Word), s.rst = false → s.seq = Sequencer.idle → s.cmd = w :: rest →
    step s = .next { s with cmd := rest, resp := s.resp ++ [1#3] }

/-- A state with everything of the fast path blanked out: what is left must not depend on it (44_fast_path R131). -/
def blankGate (s : State) : State :=
  { s with hasFastpath := false, fastAvail := false, seq := { s.seq with fastSample := none } }

end Sys2Proof.Machine
end

