-- ==== Sys2Proof/Certificates/Slice0/Obligations.lean ====
section
/-! DEFINITION. The statements for the provers, from the numbered rules of spec/. -/

open Sys2Proof Sys2Proof.Machine

/-! Encoding -/

/-- Decoding the word of a well-formed command gives it back (30_encoding R55 to R62, R68). -/
def Obligations.DecodeOfEncode : Prop :=
  ∀ i : Instr, WellFormed i = true → decode (encode i) = .ok i

/-- A word that decodes is the one word of a well-formed command: no bit is ignored (30_encoding R61, R64, R67). -/
def Obligations.EncodeOfDecode : Prop :=
  ∀ (w : Word) (i : Instr), decode w = .ok i → WellFormed i = true ∧ encode i = w

/-- The opcode map (30_encoding R62): a word is a command exactly when it matches under the mask; the pairs are disjoint. -/
def Obligations.MatchMaskSelectsCommand : Prop :=
  (∀ (m : Mnemonic) (w : Word), w &&& maskWord m = matchWord m ↔ ∃ i, decode w = .ok i ∧ mnemonicOf i = m) ∧
  (∀ (m m' : Mnemonic) (w : Word),
    w &&& maskWord m = matchWord m → w &&& maskWord m' = matchWord m' → m = m')

/-- 30_encoding R63: opcodes 0x0 and 0x8 to 0xF. -/
def Obligations.ReservedOpcodeIsIllegal : Prop :=
  (∀ w : Word, (w.toNat / 2 ^ 28 = 0 ∨ 8 ≤ w.toNat / 2 ^ 28) → AnswersIllegal w) ∧
  AnswersIllegal 0x00000000#32 ∧ AnswersIllegal 0xFFFFFFFF#32

/-- 30_encoding R64: a set reserved bit. -/
def Obligations.ReservedBitIsIllegal : Prop :=
  ∀ (w : Word) (j : Nat), reservedBit (w.toNat / 2 ^ 28) j = true → w.getLsbD j = true → AnswersIllegal w

/-- 30_encoding R65: reserved flag combinations, by the top byte of the word. -/
def Obligations.ReservedFlagsAreIllegal : Prop :=
  ∀ w : Word, w.toNat / 2 ^ 24 ∈
      [0x24, 0x25, 0x61, 0x62, 0x63, 0x65, 0x66, 0x67, 0x71, 0x72, 0x73, 0x74, 0x75, 0x76, 0x77] →
    AnswersIllegal w

/-- Words of the decoder vectors (95_test_vectors 2.7) and of the opcode map.
The reasons of the two refusals are the model's names (DESIGN CHOICE, log entry 16). -/
def Obligations.SampleWordsDecode : Prop :=
  decode 0x10000000#32 = .ok .clr ∧
  decode 0x2000FFFF#32 = .ok (.pull 65535) ∧
  decode 0x21000001#32 = .ok (.push 1) ∧
  decode 0x22000002#32 = .ok (.pullo 2) ∧
  decode 0x27000001#32 = .ok (.pushx 1) ∧
  decode 0x3000FF1F#32 = .ok (.hfinal 255 31) ∧
  decode 0x40000010#32 = .ok (.setkey 16) ∧
  decode 0x50000001#32 = .ok (.resync true) ∧
  decode 0x64000001#32 = .ok (.ksxor 1) ∧
  decode 0x70000001#32 = .ok (.hupdate 1) ∧
  decode 0x38002100#32 = .error .reservedBits ∧
  decode 0x24000001#32 = .error .reservedFlags

/-! The step -/

/-- A step of an idle block takes the head of `cmd`, and what it decodes to runs on the state without that word; a busy
block goes on with its latched command; an idle block without a command, and no reset, keeps its state.
That a block with nothing to do steps to the same state is the model's (DEDUCED, log entry 4). -/
def Obligations.StepRunsDecodedCommand : Prop :=
  (∀ (s : State) (w : Word) (rest : List Word) (i : Instr),
    s.rst = false → s.seq.phase = .idle → s.cmd = w :: rest → decode w = .ok i →
    step s = exec i { s with cmd := rest }) ∧
  (∀ (s : State) (i : Instr), s.rst = false → s.seq.phase = .busy i → step s = .next (resume i s)) ∧
  (∀ s : State, s.rst = false → s.seq.phase = .idle → s.cmd = [] → step s = .next s)

/-- A command placed for fetching is the one the next step runs.
How it is placed is the model's (DESIGN CHOICE, log entry 10). -/
def Obligations.PlacedCommandRunsNext : Prop :=
  ∀ (s : State) (nbits w : Nat) (i : Instr), decodeTableWord nbits w = some i →
    step (s.withFetchWord nbits w) = exec i { s with rst := false, seq := Sequencer.idle }

/-- Hardware reset (70_reset_and_hazards R154, R156): whatever the sequencer is doing.
That `rst` is a request consumed by one step is the model's (DESIGN CHOICE, log entry 9). -/
def Obligations.AssertedResetResetsEverything : Prop :=
  ∀ s : State, s.rst = true → ∃ t, step s = .next t ∧
    (∀ i, t.eng.a.get i = 0#32) ∧ (∀ i j, (t.eng.b.get i).get j = 0#32) ∧ t.eng.p.val = 0 ∧
    (∀ j, t.k.get j = 0#8) ∧ t.kv = false ∧ t.seq = Sequencer.idle ∧
    t.cmd = [] ∧ t.din = [] ∧ t.dout = [] ∧ t.resp = [] ∧
    t.endian = s.endian ∧ t.hasFastpath = s.hasFastpath

/-- The reset values of 10_state R30, and that hardware reset from any state leaves them with the build parameters kept. That
the input `fast_avail` is a field of State and kept is the model's (DESIGN CHOICE, log entry 2), and so is that `rst` is one
that reset clears (DESIGN CHOICE, log entry 9). -/
def Obligations.ResetStateValues : Prop :=
  (∀ i, State.reset.eng.a.get i = 0#32) ∧ (∀ i j, (State.reset.eng.b.get i).get j = 0#32) ∧
  State.reset.eng.p.val = 0 ∧ (∀ j, State.reset.k.get j = 0#8) ∧ State.reset.kv = false ∧
  State.reset.seq.phase = .idle ∧ State.reset.seq.rc.toNat = 0 ∧
  State.reset.cmd = [] ∧ State.reset.din = [] ∧ State.reset.dout = [] ∧ State.reset.resp = [] ∧
  ∀ s : State, hardwareReset s = { State.reset with
    fastAvail := s.fastAvail, endian := s.endian, hasFastpath := s.hasFastpath }

/-- No step faults or refuses, in any state, and no command does: every one of the 2^32 words has an effect. That nothing
faults or refuses is the model's reading of the whole spec (DEDUCED, log entry 17), and that a waiting command and an idle
block step as well, to the same state, is the model's stutter (DEDUCED, log entry 4). -/
def Obligations.EveryStepAnswersNext : Prop :=
  (∀ s : State, ∃ t, step s = .next t) ∧ (∀ (i : Instr) (s : State), ∃ t, exec i s = .next t)

/-! The round -/

/-- The four stage addresses (20_memory R36) and that they differ (R37). -/
def Obligations.StageAddressesOfRound : Prop :=
  ∀ p : Fin 32,
    (stage16 p).val = (p.val + 16) % 32 ∧ (stage4 p).val = (p.val + 28) % 32 ∧
    (stage0 p).val = (p.val + 1) % 32 ∧ (stage25 p).val = (p.val + 8) % 32 ∧
    [stage16 p, stage4 p, stage0 p, stage25 p].Nodup

/-- The pointer advances by one in every round, and by the number of rounds over a sequence of rounds (40_round_engine R77). -/
def Obligations.PointerAdvancesOncePerRound : Prop :=
  (∀ (e : Endian) (abs : Option Block) (out : Bool) (msk : Option Block) (g : Engine),
    (round e abs out msk g).1.p.val = (g.p.val + 1) % 32) ∧
  (∀ (e : Endian) (xs : List (Option Block)) (g : Engine),
    (roundsOver e xs g).p.val = (g.p.val + xs.length) % 32)

/-- The buffer update (40_round_engine R78, R79), by source and by destination: the injected words are the absorbed words in
push mode and `a(1)` to `a(8)` in pull mode. -/
def Obligations.RoundUpdatesBuffer : Prop :=
  ∀ (e : Endian) (abs : Option Block) (out : Bool) (msk : Option Block) (g : Engine),
    let b' := (round e abs out msk g).1.b
    let old0 := g.b.get (stage0 g.p)
    let old25 := g.b.get (stage25 g.p)
    (∀ i : Fin 8, (b'.get (stage0 g.p)).get i =
      (match abs with
        | some q => word e q i
        | none => g.a.get ⟨i.val + 1, by omega⟩) ^^^ old0.get i) ∧
    (∀ i : Fin 8, (b'.get (stage25 g.p)).get (i + 6) = old25.get (i + 6) ^^^ old0.get i) ∧
    (∀ j : Fin 8, (b'.get (stage25 g.p)).get j = old25.get j ^^^ old0.get (j + 2))

/-- The stages a round does not write are unchanged (20_memory R38). -/
def Obligations.RoundLeavesOtherStages : Prop :=
  ∀ (e : Endian) (abs : Option Block) (out : Bool) (msk : Option Block) (g : Engine) (t : Fin 32),
    t ≠ stage0 g.p → t ≠ stage25 g.p → (round e abs out msk g).1.b.get t = g.b.get t

/-- Gamma and pi (40_round_engine R80, R81): pi by source index and by destination. -/
def Obligations.GammaPiBySourceIndex : Prop :=
  (∀ (a : Vector Word 17) (i : Fin 17),
    (gamma a).get i = a.get i ^^^ (a.get (i + 1) ||| ~~~ (a.get (i + 2)))) ∧
  (∀ (g : Vector Word 17) (i : Fin 17),
    (piStep g).get (5 * i) =
      rotl (g.get i) ((5 * i.val % 17) * (5 * i.val % 17 + 1) / 2 % 32)) ∧
  (∀ (g : Vector Word 17) (k : Fin 17),
    (piStep g).get k = rotl (g.get ⟨7 * k.val % 17, by omega⟩) (k.val * (k.val + 1) / 2 % 32))

/-- The rotation amounts by destination and by source (40_round_engine R82), with the formula, pairwise different. -/
def Obligations.RotationAmounts : Prop :=
  (List.finRange 17).map rotAmount = [0, 1, 3, 6, 10, 15, 21, 28, 4, 13, 23, 2, 14, 27, 9, 24, 8] ∧
  ((List.finRange 17).map rotAmount).Nodup ∧
  (List.finRange 17).map (fun i : Fin 17 => rotAmount (5 * i)) =
    [0, 15, 23, 24, 6, 4, 27, 1, 21, 2, 8, 10, 13, 9, 3, 28, 14] ∧
  (List.finRange 17).map (fun i : Fin 17 => triangular (5 * i).val) =
    [0, 15, 55, 120, 6, 36, 91, 1, 21, 66, 136, 10, 45, 105, 3, 28, 78] ∧
  (∀ i : Fin 17, rotAmount (5 * i) = ((5 * i.val % 17) * (5 * i.val % 17 + 1) / 2) % 32)

/-- The rotation of 00_scope R10. -/
def Obligations.RotateLeftFormula : Prop :=
  ∀ x : Word, rotl x 0 = x ∧
    ∀ r : Nat, 0 < r → r ≤ 31 → (rotl x r).toNat = (x.toNat * 2 ^ r + x.toNat / 2 ^ (32 - r)) % 2 ^ 32

/-- Theta and sigma (40_round_engine R83 to R87): the constant into `a(0)`, the absorbed words or those of the stage -4
behind the old pointer into `a(1)` to `a(8)`, those of the stage +16 into `a(9)` to `a(16)`, all as before the round. -/
def Obligations.RoundMixesA : Prop :=
  ∀ (e : Endian) (abs : Option Block) (out : Bool) (msk : Option Block) (g : Engine),
    let a' := (round e abs out msk g).1.a
    let c := piStep (gamma g.a)
    a'.get 0 = c.get 0 ^^^ c.get 1 ^^^ c.get 4 ^^^ 0x00000001#32 ∧
    (∀ i : Fin 8, a'.get ⟨i.val + 1, by omega⟩ =
      c.get ⟨i.val + 1, by omega⟩ ^^^ c.get ⟨(i.val + 2) % 17, by omega⟩ ^^^
        c.get ⟨(i.val + 5) % 17, by omega⟩ ^^^
        (match abs with
          | some q => word e q i
          | none => (g.b.get (stage4 g.p)).get i)) ∧
    (∀ i : Fin 8, a'.get ⟨i.val + 9, by omega⟩ =
      c.get ⟨i.val + 9, by omega⟩ ^^^ c.get ⟨(i.val + 10) % 17, by omega⟩ ^^^
        c.get ⟨(i.val + 13) % 17, by omega⟩ ^^^ (g.b.get (stage16 g.p)).get i)

/-- The output block of a round (40_round_engine R75): `bytes(a(i+9))` of the state before the round, XORed with the mask;
none without the output flag. -/
def Obligations.RoundOutputBytes : Prop :=
  ∀ (e : Endian) (abs : Option Block) (g : Engine),
    (∀ msk, (round e abs false msk g).2 = none) ∧
    (∃ o, (round e abs true none g).2 = some o ∧
      ∀ (i : Fin 8) (j : Fin 4), byteOf o i j = byteOfWord e (g.a.get ⟨i.val + 9, by omega⟩) j) ∧
    (∀ m, ∃ o, (round e abs true (some m) g).2 = some o ∧
      ∀ (i : Fin 8) (j : Fin 4),
        byteOf o i j = byteOfWord e (g.a.get ⟨i.val + 9, by omega⟩) j ^^^ byteOf m i j)

/-- `word(blk, i)` as a number (20_memory R41) and `bytes(w)` as numbers (R42), for both policies; output word `i` occupies
bytes `4i` to `4i + 3`, and the two conversions undo each other. -/
def Obligations.WordsAndBytesOfBlocks : Prop :=
  (∀ (blk : Block) (i : Fin 8),
    (word .le blk i).toNat = (byteOf blk i 0).toNat + (byteOf blk i 1).toNat * 2 ^ 8 +
      (byteOf blk i 2).toNat * 2 ^ 16 + (byteOf blk i 3).toNat * 2 ^ 24 ∧
    (word .be blk i).toNat = (byteOf blk i 0).toNat * 2 ^ 24 + (byteOf blk i 1).toNat * 2 ^ 16 +
      (byteOf blk i 2).toNat * 2 ^ 8 + (byteOf blk i 3).toNat) ∧
  (∀ (w : Word) (j : Fin 4),
    (byteOfWord .le w j).toNat = w.toNat / 2 ^ (8 * j.val) % 256 ∧
    (byteOfWord .be w j).toNat = w.toNat / 2 ^ (8 * (3 - j.val)) % 256) ∧
  (∀ (e : Endian) (ws : Stage) (i : Fin 8) (j : Fin 4), byteOf (wordsBlock e ws) i j = byteOfWord e (ws.get i) j) ∧
  (∀ (e : Endian) (ws : Stage) (i : Fin 8), word e (wordsBlock e ws) i = ws.get i) ∧
  (∀ (e : Endian) (blk : Block), wordsBlock e (blockWords e blk) = blk)

/-- The mask on bytes, and that it equals the mask on words (20_memory R44). -/
def Obligations.MaskOnBytesIsMaskOnWords : Prop :=
  ∀ (e : Endian) (g : Engine) (m : Block),
    (∀ k : Fin 32, (roundOutput e (some m) g).get k =
      byteOfWord e (g.a.get ⟨9 + k.val / 4, by omega⟩) ⟨k.val % 4, by omega⟩ ^^^ m.get k) ∧
    (∀ (i : Fin 8) (j : Fin 4), byteOf (roundOutput e (some m) g) i j =
      byteOfWord e (g.a.get ⟨i.val + 9, by omega⟩ ^^^ word e m i) j)

/-- The corner cases (a) to (c) of 40_round_engine R92, from the zero state. -/
def Obligations.RoundsFromZeroState : Prop :=
  (∀ e : Endian, let g := (round e none false none Engine.zero).1
    g.a.get 0 = 0xFFFFFFFE#32 ∧ (∀ i : Fin 17, i ≠ 0 → g.a.get i = 0xFFFFFFFF#32) ∧
    g.b = Engine.zero.b ∧ g.p = 1) ∧
  (∀ e : Endian,
    (round e (some zeroBlock) false none Engine.zero).1 = (round e none false none Engine.zero).1) ∧
  (∀ (e : Endian) (q : Block), let g := (round e (some q) false none Engine.zero).1
    ∀ i : Fin 8, g.a.get ⟨i.val + 1, by omega⟩ = 0xFFFFFFFF#32 ^^^ word e q i ∧ (g.b.get 1).get i = word e q i)

/-! The core commands -/

/-- `CLR` (41_core_commands R94). -/
def Obligations.ClrReturnsToZeroState : Prop :=
  ∀ s : State, exec .clr s = .next (completed s Engine.zero s.din [])

/-- `PULL n` (41_core_commands R95). -/
def Obligations.PullRunsBlankRounds : Prop :=
  ∀ (count : Nat) (s : State), count < 65536 →
    exec (.pull count) s = .next (completed s (blankRounds s.endian count s.eng) s.din [])

/-- `PUSH n` (41_core_commands R96), with its `n` blocks on `din`. -/
def Obligations.PushAbsorbsBlocksInOrder : Prop :=
  ∀ (qs rest : List Block) (s : State), qs.length < 65536 → s.din = qs ++ rest →
    exec (.push qs.length) s = .next (completed s (pushAll s.endian qs s.eng) rest [])

/-- `PULLO n` (41_core_commands R97). -/
def Obligations.PulloEmitsRawOutput : Prop :=
  ∀ (count : Nat) (s : State), count < 65536 →
    exec (.pullo count) s = .next (completed s (blankRounds s.endian count s.eng) s.din
      (fullEntries (keystream s.endian count s.eng)))

/-- `PULLX n` (41_core_commands R98), with its `n` mask blocks on `din`. -/
def Obligations.PullxEmitsMaskedOutput : Prop :=
  ∀ (ms rest : List Block) (s : State), ms.length < 65536 → s.din = ms ++ rest →
    exec (.pullx ms.length) s = .next (completed s (blankRounds s.endian ms.length s.eng) rest
      (fullEntries (List.zipWith xorBlock (keystream s.endian ms.length s.eng) ms)))

/-- `PUSHO n` (41_core_commands R99), with its `n` absorb blocks on `din`. -/
def Obligations.PushoAbsorbsAndEmits : Prop :=
  ∀ (qs rest : List Block) (s : State), qs.length < 65536 → s.din = qs ++ rest →
    exec (.pusho qs.length) s = .next (completed s (pushAll s.endian qs s.eng) rest
      (fullEntries (pushOutputs s.endian qs s.eng)))

/-- `PUSHX n` (41_core_commands R100), with its `2n` blocks on `din`, absorb block first in each round. -/
def Obligations.PushxAbsorbsAndMasks : Prop :=
  ∀ (qms : List (Block × Block)) (rest : List Block) (s : State),
    qms.length < 65536 → s.din = interleave qms ++ rest →
    exec (.pushx qms.length) s = .next (completed s (pushAll s.endian (qms.map Prod.fst) s.eng) rest
      (fullEntries (List.zipWith xorBlock (pushOutputs s.endian (qms.map Prod.fst) s.eng) (qms.map Prod.snd))))

/-- `COUNT = 0` is legal for the nine counted commands: the word decodes, and the command does nothing but respond `OK`
(41_core_commands R101). -/
def Obligations.CountZeroOnlyResponds : Prop :=
  ∀ i ∈ [Instr.pull 0, .push 0, .pullo 0, .pusho 0, .pullx 0, .pushx 0, .hupdate 0, .ksgen 0, .ksxor 0],
    decode (encode i) = .ok i ∧
    ∀ s : State, exec i s = .next { s with resp := s.resp ++ [0#3], seq := Sequencer.idle }

/-- Splitting (41_core_commands R102): `X n` then `X m` moves engine, `din` and `dout` as `X (n+m)` does, for each counted
command, and responds twice; the first part must have all its blocks, or the second never starts. -/
def Obligations.CountedCommandsSplit : Prop :=
  ∀ X ∈ [Instr.pull, .push, .pullo, .pusho, .pullx, .pushx, .hupdate, .ksgen, .ksxor],
    ∀ (n m : Nat) (s t u v : State), n + m ≤ 65535 →
      exec (X (n + m)) s = .next t → exec (X n) s = .next u → u.seq.phase = .idle → exec (X m) u = .next v →
      t.eng = v.eng ∧ t.din = v.din ∧ t.dout = v.dout ∧
      (v.seq.phase = .idle → t.resp = s.resp ++ [0#3] ∧ v.resp = s.resp ++ [0#3, 0#3])

/-! The hash adapter -/

/-- `HUPDATE n` (42_hash_adapter R106), with its `n` blocks on `din`. -/
def Obligations.HupdateAbsorbsMessageBlocks : Prop :=
  ∀ (qs rest : List Block) (s : State), qs.length < 65536 → s.din = qs ++ rest →
    exec (.hupdate qs.length) s = .next (completed s (pushAll s.endian qs s.eng) rest [])

/-- Absorb equivalence (42_hash_adapter R107), and the same for the keystream commands (43_cipher_adapter R122, R123): the
two commands differ in nothing but what the sequencer remembers while one waits.
What it remembers is the model's (log entries 5 to 8). -/
def Obligations.AdapterCommandsEqualCoreCommands : Prop :=
  ∀ P ∈ [(Instr.hupdate, Instr.push), (Instr.ksgen, Instr.pullo), (Instr.ksxor, Instr.pullx)],
    ∀ (n : Nat) (s t u : State), n < 65536 → exec (P.1 n) s = .next t → exec (P.2 n) s = .next u →
      t = { u with seq := t.seq } ∧ (t.seq = Sequencer.idle ↔ u.seq = Sequencer.idle)

/-- The padded block (42_hash_adapter R110), on bytes, and its first word for `LEN = 0` under both policies. -/
def Obligations.PaddingOfFinalBlock : Prop :=
  (∀ (len : Nat) (f : Block) (k : Fin 32), len ≤ 31 →
    (k.val < len → (padBlock len f).get k = f.get k) ∧
    (k.val = len → (padBlock len f).get k = 0x01#8) ∧
    (len < k.val → (padBlock len f).get k = 0x00#8)) ∧
  (∀ f : Block, word .le (padBlock 0 f) 0 = 0x00000001#32 ∧ word .be (padBlock 0 f) 0 = 0x01000000#32)

/-- `HFINAL` with a legal size and its block on `din` (42_hash_adapter R108, R109, R111 to R114): push the padded block, 32
blank pulls, the output of one more pull, its first `dsize` bytes and zero bytes, then the zero state. -/
def Obligations.HfinalProducesDigest : Prop :=
  ∀ (dsize len : Nat) (f : Block) (rest : List Block) (s : State),
    1 ≤ dsize → dsize ≤ 32 → len ≤ 31 → s.din = f :: rest →
    ∃ d : Block, exec (.hfinal dsize len) s =
        .next (completed s Engine.zero rest [⟨d, BitVec.ofNat 6 dsize⟩]) ∧
      ∃ o : Block,
        (round s.endian none true none
          (blankRounds s.endian 32 (round s.endian (some (padBlock len f)) false none s.eng).1)).2 = some o ∧
        ∀ k : Fin 32, d.get k = if k.val < dsize then o.get k else 0x00#8

/-- The three refusals (60_exceptions R141 to R143): `HFINAL` with a size outside 1..32, `SETKEY` with a length that is not
32, `RESYNC` without a key; each leaves its code and changes nothing. -/
def Obligations.PreconditionsRefuse : Prop :=
  ∀ s : State,
    (∀ dsize len : Nat, (dsize = 0 ∨ 32 < dsize) → exec (.hfinal dsize len) s = .next (errored s 2#3)) ∧
    (∀ klen : Nat, klen ≠ 32 → exec (.setkey klen) s = .next (errored s 3#3)) ∧
    (∀ ivp : Bool, s.kv = false → exec (.resync ivp) s = .next (errored s 4#3))

/-- After any `HFINAL` that ends `OK` the engine is the zero state and the key is kept, whatever came before; one that ends in
`ERR_TRUNC` changes nothing (42_hash_adapter R114). -/
def Obligations.HfinalLeavesZeroState : Prop :=
  ∀ (dsize len : Nat) (s t : State), exec (.hfinal dsize len) s = .next t →
    (t.resp = s.resp ++ [0#3] →
      (∀ i, t.eng.a.get i = 0#32) ∧ (∀ i j, (t.eng.b.get i).get j = 0#32) ∧ t.eng.p.val = 0 ∧
      t.k = s.k ∧ t.kv = s.kv) ∧
    (t.resp = s.resp ++ [2#3] → t = errored s 2#3)

/-! The cipher adapter -/

/-- `SETKEY` with `KLEN = 32` and the key block on `din` (43_cipher_adapter R116, R117): `K`, `KV`, nothing of `{A, B, P}`. -/
def Obligations.SetkeyStoresKey : Prop :=
  ∀ (key : Block) (rest : List Block) (s : State), s.din = key :: rest →
    exec (.setkey 32) s = .next { completed s s.eng rest [] with k := key, kv := true }

/-- `RESYNC` with a key (43_cipher_adapter R118, R119): from the zero state push `K`, push the IV or 32 zero bytes, 32 blank
pulls; `P = 2` afterwards. -/
def Obligations.ResyncLoadsKeyAndIv : Prop :=
  (∀ (iv : Block) (rest : List Block) (s : State), s.kv = true → s.din = iv :: rest →
    exec (.resync true) s = .next (completed s
      (blankRounds s.endian 32 (pushAll s.endian [s.k, iv] Engine.zero)) rest [])) ∧
  (∀ s : State, s.kv = true →
    exec (.resync false) s = .next (completed s
      (blankRounds s.endian 32 (pushAll s.endian [s.k, Vector.replicate 32 0x00#8] Engine.zero)) s.din [])) ∧
  (∀ (ivp : Bool) (s t : State), exec (.resync ivp) s = .next t → t.resp = s.resp ++ [0#3] → t.eng.p.val = 2)

/-- `KSGEN n` (43_cipher_adapter R122); it does not look at `KV`. -/
def Obligations.KsgenEmitsKeystream : Prop :=
  ∀ (count : Nat) (s : State), count < 65536 →
    exec (.ksgen count) s = .next (completed s (blankRounds s.endian count s.eng) s.din
      (fullEntries (keystream s.endian count s.eng)))

/-- `KSXOR n` (43_cipher_adapter R123), with its `n` data blocks on `din`. -/
def Obligations.KsxorXorsKeystreamOntoData : Prop :=
  ∀ (ms rest : List Block) (s : State), ms.length < 65536 → s.din = ms ++ rest →
    exec (.ksxor ms.length) s = .next (completed s (blankRounds s.endian ms.length s.eng) rest
      (fullEntries (List.zipWith xorBlock (keystream s.endian ms.length s.eng) ms)))

/-- Encryption is decryption (43_cipher_adapter R124): what `RESYNC; KSXOR n` makes of the data, `RESYNC; KSXOR n` under the
same key, IV and byte order, in any state, turns back into the data. -/
def Obligations.CipherRoundTrip : Prop :=
  ∀ (iv : Block) (ms rest : List Block) (s : State),
    ms.length < 65536 → s.kv = true → s.din = iv :: (ms ++ rest) →
    ∃ (s1 s2 : State) (cs : List Block),
      exec (.resync true) s = .next s1 ∧ exec (.ksxor ms.length) s1 = .next s2 ∧
      cs.length = ms.length ∧ s2.dout = s.dout ++ fullEntries cs ∧
      ∀ (u : State) (rest' : List Block),
        u.kv = true → u.k = s.k → u.endian = s.endian → u.din = iv :: (cs ++ rest') →
        ∃ u1 u2, exec (.resync true) u = .next u1 ∧ exec (.ksxor ms.length) u1 = .next u2 ∧
          u2.dout = u.dout ++ fullEntries ms

/-! Waiting (70_reset_and_hazards R164) -/

/-- The streaming commands with too few blocks (70_reset_and_hazards R164): the rounds done stand with their output, `cmd` and
`resp` are untouched, the rest is still to run. Five take one block per round; `KSXOR` keeps the sample of the gate it took
(43_cipher_adapter R126). `PUSHX` takes two (41_core_commands R100, 20_memory R49): after whole pairs it holds nothing, after
one block more it holds that absorb block, and its round has not run (DEDUCED, log entry 5).
How a waiting command is held is the model's (log entries 4 to 8). -/
def Obligations.StreamingCommandsWait : Prop :=
  (∀ (bs : List Block) (n : Nat) (s : State), n < 65536 → bs.length < n → s.din = bs →
    exec (.push n) s = .next (waiting s (pushAll s.endian bs s.eng) []
      ⟨.busy (.push n), BitVec.ofNat 16 (n - bs.length), none, none⟩) ∧
    exec (.hupdate n) s = .next (waiting s (pushAll s.endian bs s.eng) []
      ⟨.busy (.hupdate n), BitVec.ofNat 16 (n - bs.length), none, none⟩) ∧
    exec (.pusho n) s = .next (waiting s (pushAll s.endian bs s.eng)
      (fullEntries (pushOutputs s.endian bs s.eng))
      ⟨.busy (.pusho n), BitVec.ofNat 16 (n - bs.length), none, none⟩) ∧
    exec (.pullx n) s = .next (waiting s (blankRounds s.endian bs.length s.eng)
      (fullEntries (List.zipWith xorBlock (keystream s.endian bs.length s.eng) bs))
      ⟨.busy (.pullx n), BitVec.ofNat 16 (n - bs.length), none, none⟩) ∧
    exec (.ksxor n) s = .next (waiting s (blankRounds s.endian bs.length s.eng)
      (fullEntries (List.zipWith xorBlock (keystream s.endian bs.length s.eng) bs))
      ⟨.busy (.ksxor n), BitVec.ofNat 16 (n - bs.length), none, gateSample s⟩)) ∧
  (∀ (qms : List (Block × Block)) (odd : Option Block) (n : Nat) (s : State),
    n < 65536 → qms.length < n → s.din = interleave qms ++ odd.toList →
    exec (.pushx n) s = .next (waiting s (pushAll s.endian (qms.map Prod.fst) s.eng)
      (fullEntries (List.zipWith xorBlock (pushOutputs s.endian (qms.map Prod.fst) s.eng) (qms.map Prod.snd)))
      ⟨.busy (.pushx n), BitVec.ofNat 16 (n - qms.length), odd, none⟩))

/-- The commands that need one block, without it: latched, nothing done yet.
How a waiting command is held is the model's (log entries 4 to 8). -/
def Obligations.SingleBlockCommandsWait : Prop :=
  ∀ s : State, s.din = [] →
    (∀ dsize len, 1 ≤ dsize → dsize ≤ 32 → exec (.hfinal dsize len) s =
      .next { s with seq := ⟨.busy (.hfinal dsize len), 34#16, none, none⟩ }) ∧
    exec (.setkey 32) s = .next { s with seq := ⟨.busy (.setkey 32), 0#16, none, none⟩ } ∧
    (s.kv = true → exec (.resync true) s =
      .next { s with seq := ⟨.busy (.resync true), 34#16, none, gateSample s⟩ })

/-- Blocks pushed on `din` before or after the command word are equivalent (20_memory R53, 70_reset_and_hazards R164): a
command that ran out of blocks and goes on when they come ends as if they had been there; one that did not run out leaves
them on `din`.
How a waiting command goes on is the model's (DEDUCED, log entries 4 and 5). -/
def Obligations.LateBlocksAreEquivalent : Prop :=
  ∀ (i : Instr) (more : List Block) (s t : State), WellFormed i = true → s.rst = false → exec i s = .next t →
    (t.seq.phase = .busy i → step (hostPushDin more t) = exec i (hostPushDin more s)) ∧
    (t.seq.phase = .idle → exec i (hostPushDin more s) = .next (hostPushDin more t))

/-- A command that still finds no block keeps the whole state (70_reset_and_hazards R164): while it waits, no later command
starts.
That waiting is a step is the model's (DEDUCED, log entry 4). -/
def Obligations.WaitingStepChangesNothing : Prop :=
  ∀ (s : State) (i : Instr), BlockInv s → s.rst = false → s.seq.phase = .busy i → s.din = [] → step s = .next s

/-! Rules about the whole machine -/

/-- What a command leaves unchanged, whatever its outcome: the commands after it, the inputs, the build parameters, what is
already on `dout` and `resp`; it takes a prefix of `din`; only `SETKEY` changes the key (43_cipher_adapter R128), and
`SETKEY` leaves the engine (R117). -/
def Obligations.CommandFrame : Prop :=
  ∀ (i : Instr) (s t : State), exec i s = .next t →
    t.cmd = s.cmd ∧ t.rst = s.rst ∧ t.fastAvail = s.fastAvail ∧ t.endian = s.endian ∧
    t.hasFastpath = s.hasFastpath ∧
    (∃ taken, s.din = taken ++ t.din) ∧ (∃ outs, t.dout = s.dout ++ outs) ∧ (∃ codes, t.resp = s.resp ++ codes) ∧
    ((∀ klen, i ≠ .setkey klen) → t.k = s.k ∧ t.kv = s.kv) ∧
    (∀ klen, i = .setkey klen → t.eng = s.eng ∧ t.dout = s.dout)

/-- `K` is read only by `RESYNC` (10_state R20): no other command's effect depends on it. -/
def Obligations.KeyIsReadOnlyByResync : Prop :=
  ∀ (i : Instr) (key : Block) (s t t' : State), (∀ ivp, i ≠ .resync ivp) →
    exec i s = .next t → exec i { s with k := key } = .next t' → { t' with k := t.k } = t

/-- An error changes nothing but the response queue (60_exceptions R139). -/
def Obligations.ErrorsLeaveNoTrace : Prop :=
  ∀ (i : Instr) (s t : State) (c : BitVec 3), exec i s = .next t → t.resp = s.resp ++ [c] → c ≠ 0#3 →
    t = errored s c

/-- One response per command (41_core_commands R93, 60_exceptions R137): a command ends with one code of 0 to 4 and an idle
sequencer, or it is still busy without a response, and then `din` is empty.
How a waiting command is held is the model's (log entries 3 and 4); that `din` is empty also while `PUSHX` waits for a mask
block, its absorb block popped and held, is the model's (DEDUCED, log entry 5). -/
def Obligations.OneResponsePerCommand : Prop :=
  ∀ (i : Instr) (s t : State), WellFormed i = true → exec i s = .next t →
    (t.seq = Sequencer.idle ∧ ∃ c : BitVec 3, c.toNat ≤ 4 ∧ t.resp = s.resp ++ [c]) ∨
    (t.seq.phase = .busy i ∧ t.resp = s.resp ∧ t.din = [])

/-- The blocks a command moves when it ends `OK` (30_encoding R72). -/
def Obligations.BlocksMovedPerCommand : Prop :=
  ∀ (i : Instr) (s t : State), WellFormed i = true → exec i s = .next t → t.resp = s.resp ++ [0#3] →
    (∃ taken, s.din = taken ++ t.din ∧ taken.length = popsOf i) ∧
    (∃ added, t.dout = s.dout ++ added ∧ added.length = pushesOf i)

/-- `K` and `KV` are changed by `SETKEY` and hardware reset only (43_cipher_adapter R128). -/
def Obligations.OnlySetkeyAndResetChangeKey : Prop :=
  ∀ s t : State, step s = .next t → (t.k ≠ s.k ∨ t.kv ≠ s.kv) →
    s.rst = true ∨ (∃ klen, s.seq.phase = .busy (.setkey klen)) ∨
    (s.seq.phase = .idle ∧ ∃ w rest, s.cmd = w :: rest ∧ decode w = .ok (.setkey 32))

/-- No step changes a build parameter or the input `fast_avail` (00_scope R7, 20_memory R45).
That the input is a field of State is the model's (DESIGN CHOICE, log entry 2). -/
def Obligations.BuildParametersNeverChange : Prop :=
  ∀ s t : State, step s = .next t →
    t.endian = s.endian ∧ t.hasFastpath = s.hasFastpath ∧ t.fastAvail = s.fastAvail

/-- The fast path and its gate influence nothing (44_fast_path R131): states that differ only in them go to states that differ
only in them.
That the gate and its sample are fields of State is the model's (log entries 2 and 8). -/
def Obligations.FastPathIsUnobservable : Prop :=
  ∀ s u t v : State, blankGate s = blankGate u → step s = .next t → step u = .next v → blankGate t = blankGate v

/-- A pull round, and any number of them, over the physical layout equals the scalar round, state and output (44_fast_path
R131, R133).
The slot arithmetic is the model's (DEDUCED, log entry 21). -/
def Obligations.FastPathRefinesScalarRound : Prop :=
  (∀ (e : Endian) (out : Bool) (msk : Option Block) (g : Engine),
    fastRound (toPhys g) = toPhys (round e none out msk g).1 ∧
    fastOutput e msk (toPhys g) = roundOutput e msk g) ∧
  (∀ (e : Endian) (n : Nat) (g : Engine), fastRounds n (toPhys g) = toPhys (blankRounds e n g))

/-- The physical layout (10_state R14): the map printed there, its reverse, and stride 4 is adjacent. -/
def Obligations.PhysicalLayoutIsBijection : Prop :=
  (List.finRange 17).map slotOf = [16, 12, 8, 4, 0, 13, 9, 5, 1, 14, 10, 6, 2, 15, 11, 7, 3] ∧
  (∀ i : Fin 17, (slotOf i).val = (13 * i.val + 16) % 17) ∧
  (∀ i : Fin 17, logicalOf (slotOf i) = i) ∧ (∀ t : Fin 17, slotOf (logicalOf t) = t) ∧
  (∀ i : Fin 17, slotOf (i + 4) = slotOf i + 1)

/-- The invariant holds right after reset. -/
def Obligations.InvariantHoldsAtReset : Prop := BlockInv State.reset

/-- Every step keeps the invariant (10_state R33, 20_memory R48, 60_exceptions R137).
What a busy sequencer holds is the model's (log entries 5 to 8). -/
def Obligations.EveryStepKeepsInvariant : Prop :=
  ∀ s t : State, BlockInv s → step s = .next t → BlockInv t
end

