-- ==== Sys2Proof/Laws/Decode.lean ====
section
/-! SUPPORT. The decoder by opcode, and the fields of an encoded word: what proofs about encodings cite instead of unfolding
`decode`, `encode` and `field`. -/

namespace Sys2Proof

theorem field_lt (w : Word) (hi lo : Nat) : field w hi lo < 2 ^ (hi + 1 - lo) := Nat.mod_lt _ (by positivity)

/-- A field of a number that fits 32 bits. -/
theorem field_ofNat (n hi lo : Nat) (h : n < 2 ^ 32) :
    field (BitVec.ofNat 32 n) hi lo = n / 2 ^ lo % 2 ^ (hi + 1 - lo) := by
  rw [field, BitVec.toNat_ofNat, Nat.mod_eq_of_lt h]

/-- Words of opcode 1 (30_encoding R68). -/
theorem decode_of_opcode1 {w : Word} (h : field w 31 28 = 1) :
    decode w =
      if field w 27 0 = 0 then .ok .clr else .error .reservedBits := by
  unfold decode
  rw [h]
  rfl

/-- Words of opcode 2 (30_encoding R68). -/
theorem decode_of_opcode2 {w : Word} (h : field w 31 28 = 2) :
    decode w =
      if field w 27 27 ≠ 0 ∨ field w 23 16 ≠ 0 then .error .reservedBits
      else match field w 26 24 with
        | 0b000 => .ok (.pull (field w 15 0))
        | 0b001 => .ok (.push (field w 15 0))
        | 0b010 => .ok (.pullo (field w 15 0))
        | 0b011 => .ok (.pusho (field w 15 0))
        | 0b110 => .ok (.pullx (field w 15 0))
        | 0b111 => .ok (.pushx (field w 15 0))
        | _ => .error .reservedFlags := by
  unfold decode
  rw [h]
  rfl

/-- Words of opcode 3 (30_encoding R68). -/
theorem decode_of_opcode3 {w : Word} (h : field w 31 28 = 3) :
    decode w =
      if field w 27 16 ≠ 0 ∨ field w 7 5 ≠ 0 then .error .reservedBits
      else .ok (.hfinal (field w 15 8) (field w 4 0)) := by
  unfold decode
  rw [h]
  rfl

/-- Words of opcode 4 (30_encoding R68). -/
theorem decode_of_opcode4 {w : Word} (h : field w 31 28 = 4) :
    decode w =
      if field w 27 8 ≠ 0 then .error .reservedBits else .ok (.setkey (field w 7 0)) := by
  unfold decode
  rw [h]
  rfl

/-- Words of opcode 5 (30_encoding R68). -/
theorem decode_of_opcode5 {w : Word} (h : field w 31 28 = 5) :
    decode w =
      if field w 27 1 ≠ 0 then .error .reservedBits else .ok (.resync (decide (field w 0 0 = 1))) := by
  unfold decode
  rw [h]
  rfl

/-- Words of opcode 6 (30_encoding R68). -/
theorem decode_of_opcode6 {w : Word} (h : field w 31 28 = 6) :
    decode w =
      if field w 27 27 ≠ 0 ∨ field w 23 16 ≠ 0 then .error .reservedBits
      else if field w 25 24 ≠ 0 then .error .reservedFlags
      else if field w 26 26 = 0 then .ok (.ksgen (field w 15 0)) else .ok (.ksxor (field w 15 0)) := by
  unfold decode
  rw [h]
  rfl

/-- Words of opcode 7 (30_encoding R68). -/
theorem decode_of_opcode7 {w : Word} (h : field w 31 28 = 7) :
    decode w =
      if field w 27 27 ≠ 0 ∨ field w 23 16 ≠ 0 then .error .reservedBits
      else if field w 26 24 ≠ 0 then .error .reservedFlags
      else .ok (.hupdate (field w 15 0)) := by
  unfold decode
  rw [h]
  rfl

/-- Words of the reserved opcodes (30_encoding R63). -/
theorem decode_of_reserved {w : Word} (h : field w 31 28 = 0 ∨ 8 ≤ field w 31 28) :
    decode w = .error .reservedOpcode := by
  unfold decode
  split <;> first | rfl | omega

end Sys2Proof
end

