-- ==== Sys2Proof/Laws/State.lean ====
section
/-! SUPPORT. One lemma per field per update of State, each true by rfl, so that no proof unfolds a record update. -/

namespace Sys2Proof.Machine

@[simp] theorem zeroise_eng (s : State) : (zeroise s).eng = Engine.zero := rfl
@[simp] theorem zeroise_k (s : State) : (zeroise s).k = s.k := rfl
@[simp] theorem zeroise_kv (s : State) : (zeroise s).kv = s.kv := rfl
@[simp] theorem zeroise_seq (s : State) : (zeroise s).seq = s.seq := rfl
@[simp] theorem zeroise_cmd (s : State) : (zeroise s).cmd = s.cmd := rfl
@[simp] theorem zeroise_din (s : State) : (zeroise s).din = s.din := rfl
@[simp] theorem zeroise_dout (s : State) : (zeroise s).dout = s.dout := rfl
@[simp] theorem zeroise_resp (s : State) : (zeroise s).resp = s.resp := rfl
@[simp] theorem zeroise_rst (s : State) : (zeroise s).rst = s.rst := rfl
@[simp] theorem zeroise_fastAvail (s : State) : (zeroise s).fastAvail = s.fastAvail := rfl
@[simp] theorem zeroise_endian (s : State) : (zeroise s).endian = s.endian := rfl
@[simp] theorem zeroise_hasFastpath (s : State) : (zeroise s).hasFastpath = s.hasFastpath := rfl

@[simp] theorem doutPush_eng (blk : Block) (n : BitVec 6) (s : State) : (doutPush blk n s).eng = s.eng := rfl
@[simp] theorem doutPush_k (blk : Block) (n : BitVec 6) (s : State) : (doutPush blk n s).k = s.k := rfl
@[simp] theorem doutPush_kv (blk : Block) (n : BitVec 6) (s : State) : (doutPush blk n s).kv = s.kv := rfl
@[simp] theorem doutPush_seq (blk : Block) (n : BitVec 6) (s : State) : (doutPush blk n s).seq = s.seq := rfl
@[simp] theorem doutPush_cmd (blk : Block) (n : BitVec 6) (s : State) : (doutPush blk n s).cmd = s.cmd := rfl
@[simp] theorem doutPush_din (blk : Block) (n : BitVec 6) (s : State) : (doutPush blk n s).din = s.din := rfl
@[simp] theorem doutPush_dout (blk : Block) (n : BitVec 6) (s : State) : (doutPush blk n s).dout = s.dout ++ [⟨blk, n⟩] := rfl
@[simp] theorem doutPush_resp (blk : Block) (n : BitVec 6) (s : State) : (doutPush blk n s).resp = s.resp := rfl
@[simp] theorem doutPush_rst (blk : Block) (n : BitVec 6) (s : State) : (doutPush blk n s).rst = s.rst := rfl
@[simp] theorem doutPush_fastAvail (blk : Block) (n : BitVec 6) (s : State) : (doutPush blk n s).fastAvail = s.fastAvail := rfl
@[simp] theorem doutPush_endian (blk : Block) (n : BitVec 6) (s : State) : (doutPush blk n s).endian = s.endian := rfl
@[simp] theorem doutPush_hasFastpath (blk : Block) (n : BitVec 6) (s : State) : (doutPush blk n s).hasFastpath = s.hasFastpath := rfl

@[simp] theorem respond_eng (r : Response) (s : State) : (respond r s).eng = s.eng := rfl
@[simp] theorem respond_k (r : Response) (s : State) : (respond r s).k = s.k := rfl
@[simp] theorem respond_kv (r : Response) (s : State) : (respond r s).kv = s.kv := rfl
@[simp] theorem respond_seq (r : Response) (s : State) : (respond r s).seq = s.seq := rfl
@[simp] theorem respond_cmd (r : Response) (s : State) : (respond r s).cmd = s.cmd := rfl
@[simp] theorem respond_din (r : Response) (s : State) : (respond r s).din = s.din := rfl
@[simp] theorem respond_dout (r : Response) (s : State) : (respond r s).dout = s.dout := rfl
@[simp] theorem respond_resp (r : Response) (s : State) : (respond r s).resp = s.resp ++ [responseCode r] := rfl
@[simp] theorem respond_rst (r : Response) (s : State) : (respond r s).rst = s.rst := rfl
@[simp] theorem respond_fastAvail (r : Response) (s : State) : (respond r s).fastAvail = s.fastAvail := rfl
@[simp] theorem respond_endian (r : Response) (s : State) : (respond r s).endian = s.endian := rfl
@[simp] theorem respond_hasFastpath (r : Response) (s : State) : (respond r s).hasFastpath = s.hasFastpath := rfl

@[simp] theorem goIdle_eng (s : State) : (goIdle s).eng = s.eng := rfl
@[simp] theorem goIdle_k (s : State) : (goIdle s).k = s.k := rfl
@[simp] theorem goIdle_kv (s : State) : (goIdle s).kv = s.kv := rfl
@[simp] theorem goIdle_seq (s : State) : (goIdle s).seq = Sequencer.idle := rfl
@[simp] theorem goIdle_cmd (s : State) : (goIdle s).cmd = s.cmd := rfl
@[simp] theorem goIdle_din (s : State) : (goIdle s).din = s.din := rfl
@[simp] theorem goIdle_dout (s : State) : (goIdle s).dout = s.dout := rfl
@[simp] theorem goIdle_resp (s : State) : (goIdle s).resp = s.resp := rfl
@[simp] theorem goIdle_rst (s : State) : (goIdle s).rst = s.rst := rfl
@[simp] theorem goIdle_fastAvail (s : State) : (goIdle s).fastAvail = s.fastAvail := rfl
@[simp] theorem goIdle_endian (s : State) : (goIdle s).endian = s.endian := rfl
@[simp] theorem goIdle_hasFastpath (s : State) : (goIdle s).hasFastpath = s.hasFastpath := rfl

@[simp] theorem finish_eng (s : State) : (finish s).eng = s.eng := rfl
@[simp] theorem finish_k (s : State) : (finish s).k = s.k := rfl
@[simp] theorem finish_kv (s : State) : (finish s).kv = s.kv := rfl
@[simp] theorem finish_seq (s : State) : (finish s).seq = Sequencer.idle := rfl
@[simp] theorem finish_cmd (s : State) : (finish s).cmd = s.cmd := rfl
@[simp] theorem finish_din (s : State) : (finish s).din = s.din := rfl
@[simp] theorem finish_dout (s : State) : (finish s).dout = s.dout := rfl
@[simp] theorem finish_resp (s : State) : (finish s).resp = s.resp ++ [0#3] := rfl
@[simp] theorem finish_rst (s : State) : (finish s).rst = s.rst := rfl
@[simp] theorem finish_fastAvail (s : State) : (finish s).fastAvail = s.fastAvail := rfl
@[simp] theorem finish_endian (s : State) : (finish s).endian = s.endian := rfl
@[simp] theorem finish_hasFastpath (s : State) : (finish s).hasFastpath = s.hasFastpath := rfl

@[simp] theorem raiseErr_eng (r : Response) (s : State) : (raiseErr r s).eng = s.eng := rfl
@[simp] theorem raiseErr_k (r : Response) (s : State) : (raiseErr r s).k = s.k := rfl
@[simp] theorem raiseErr_kv (r : Response) (s : State) : (raiseErr r s).kv = s.kv := rfl
@[simp] theorem raiseErr_seq (r : Response) (s : State) : (raiseErr r s).seq = Sequencer.idle := rfl
@[simp] theorem raiseErr_cmd (r : Response) (s : State) : (raiseErr r s).cmd = s.cmd := rfl
@[simp] theorem raiseErr_din (r : Response) (s : State) : (raiseErr r s).din = s.din := rfl
@[simp] theorem raiseErr_dout (r : Response) (s : State) : (raiseErr r s).dout = s.dout := rfl
@[simp] theorem raiseErr_resp (r : Response) (s : State) : (raiseErr r s).resp = s.resp ++ [responseCode r] := rfl
@[simp] theorem raiseErr_rst (r : Response) (s : State) : (raiseErr r s).rst = s.rst := rfl
@[simp] theorem raiseErr_fastAvail (r : Response) (s : State) : (raiseErr r s).fastAvail = s.fastAvail := rfl
@[simp] theorem raiseErr_endian (r : Response) (s : State) : (raiseErr r s).endian = s.endian := rfl
@[simp] theorem raiseErr_hasFastpath (r : Response) (s : State) : (raiseErr r s).hasFastpath = s.hasFastpath := rfl

@[simp] theorem latch_eng (i : Instr) (n : Nat) (s : State) : (latch i n s).eng = s.eng := rfl
@[simp] theorem latch_k (i : Instr) (n : Nat) (s : State) : (latch i n s).k = s.k := rfl
@[simp] theorem latch_kv (i : Instr) (n : Nat) (s : State) : (latch i n s).kv = s.kv := rfl
@[simp] theorem latch_seq (i : Instr) (n : Nat) (s : State) : (latch i n s).seq = { phase := .busy i, rc := BitVec.ofNat 16 n, held := none, fastSample := none } := rfl
@[simp] theorem latch_cmd (i : Instr) (n : Nat) (s : State) : (latch i n s).cmd = s.cmd := rfl
@[simp] theorem latch_din (i : Instr) (n : Nat) (s : State) : (latch i n s).din = s.din := rfl
@[simp] theorem latch_dout (i : Instr) (n : Nat) (s : State) : (latch i n s).dout = s.dout := rfl
@[simp] theorem latch_resp (i : Instr) (n : Nat) (s : State) : (latch i n s).resp = s.resp := rfl
@[simp] theorem latch_rst (i : Instr) (n : Nat) (s : State) : (latch i n s).rst = s.rst := rfl
@[simp] theorem latch_fastAvail (i : Instr) (n : Nat) (s : State) : (latch i n s).fastAvail = s.fastAvail := rfl
@[simp] theorem latch_endian (i : Instr) (n : Nat) (s : State) : (latch i n s).endian = s.endian := rfl
@[simp] theorem latch_hasFastpath (i : Instr) (n : Nat) (s : State) : (latch i n s).hasFastpath = s.hasFastpath := rfl

@[simp] theorem sampleGate_eng (s : State) : (sampleGate s).eng = s.eng := rfl
@[simp] theorem sampleGate_k (s : State) : (sampleGate s).k = s.k := rfl
@[simp] theorem sampleGate_kv (s : State) : (sampleGate s).kv = s.kv := rfl
@[simp] theorem sampleGate_seq (s : State) : (sampleGate s).seq = { s.seq with fastSample := if s.hasFastpath then some s.fastAvail else none } := rfl
@[simp] theorem sampleGate_cmd (s : State) : (sampleGate s).cmd = s.cmd := rfl
@[simp] theorem sampleGate_din (s : State) : (sampleGate s).din = s.din := rfl
@[simp] theorem sampleGate_dout (s : State) : (sampleGate s).dout = s.dout := rfl
@[simp] theorem sampleGate_resp (s : State) : (sampleGate s).resp = s.resp := rfl
@[simp] theorem sampleGate_rst (s : State) : (sampleGate s).rst = s.rst := rfl
@[simp] theorem sampleGate_fastAvail (s : State) : (sampleGate s).fastAvail = s.fastAvail := rfl
@[simp] theorem sampleGate_endian (s : State) : (sampleGate s).endian = s.endian := rfl
@[simp] theorem sampleGate_hasFastpath (s : State) : (sampleGate s).hasFastpath = s.hasFastpath := rfl

@[simp] theorem waitBlock_eng (n : Nat) (h : Option Block) (s : State) : (waitBlock n h s).eng = s.eng := rfl
@[simp] theorem waitBlock_k (n : Nat) (h : Option Block) (s : State) : (waitBlock n h s).k = s.k := rfl
@[simp] theorem waitBlock_kv (n : Nat) (h : Option Block) (s : State) : (waitBlock n h s).kv = s.kv := rfl
@[simp] theorem waitBlock_seq (n : Nat) (h : Option Block) (s : State) : (waitBlock n h s).seq = { s.seq with rc := BitVec.ofNat 16 n, held := h } := rfl
@[simp] theorem waitBlock_cmd (n : Nat) (h : Option Block) (s : State) : (waitBlock n h s).cmd = s.cmd := rfl
@[simp] theorem waitBlock_din (n : Nat) (h : Option Block) (s : State) : (waitBlock n h s).din = s.din := rfl
@[simp] theorem waitBlock_dout (n : Nat) (h : Option Block) (s : State) : (waitBlock n h s).dout = s.dout := rfl
@[simp] theorem waitBlock_resp (n : Nat) (h : Option Block) (s : State) : (waitBlock n h s).resp = s.resp := rfl
@[simp] theorem waitBlock_rst (n : Nat) (h : Option Block) (s : State) : (waitBlock n h s).rst = s.rst := rfl
@[simp] theorem waitBlock_fastAvail (n : Nat) (h : Option Block) (s : State) : (waitBlock n h s).fastAvail = s.fastAvail := rfl
@[simp] theorem waitBlock_endian (n : Nat) (h : Option Block) (s : State) : (waitBlock n h s).endian = s.endian := rfl
@[simp] theorem waitBlock_hasFastpath (n : Nat) (h : Option Block) (s : State) : (waitBlock n h s).hasFastpath = s.hasFastpath := rfl

@[simp] theorem storeKey_eng (key : Block) (s : State) : (storeKey key s).eng = s.eng := rfl
@[simp] theorem storeKey_k (key : Block) (s : State) : (storeKey key s).k = key := rfl
@[simp] theorem storeKey_kv (key : Block) (s : State) : (storeKey key s).kv = true := rfl
@[simp] theorem storeKey_seq (key : Block) (s : State) : (storeKey key s).seq = s.seq := rfl
@[simp] theorem storeKey_cmd (key : Block) (s : State) : (storeKey key s).cmd = s.cmd := rfl
@[simp] theorem storeKey_din (key : Block) (s : State) : (storeKey key s).din = s.din := rfl
@[simp] theorem storeKey_dout (key : Block) (s : State) : (storeKey key s).dout = s.dout := rfl
@[simp] theorem storeKey_resp (key : Block) (s : State) : (storeKey key s).resp = s.resp := rfl
@[simp] theorem storeKey_rst (key : Block) (s : State) : (storeKey key s).rst = s.rst := rfl
@[simp] theorem storeKey_fastAvail (key : Block) (s : State) : (storeKey key s).fastAvail = s.fastAvail := rfl
@[simp] theorem storeKey_endian (key : Block) (s : State) : (storeKey key s).endian = s.endian := rfl
@[simp] theorem storeKey_hasFastpath (key : Block) (s : State) : (storeKey key s).hasFastpath = s.hasFastpath := rfl

@[simp] theorem hostPushDin_eng (bs : List Block) (s : State) : (hostPushDin bs s).eng = s.eng := rfl
@[simp] theorem hostPushDin_k (bs : List Block) (s : State) : (hostPushDin bs s).k = s.k := rfl
@[simp] theorem hostPushDin_kv (bs : List Block) (s : State) : (hostPushDin bs s).kv = s.kv := rfl
@[simp] theorem hostPushDin_seq (bs : List Block) (s : State) : (hostPushDin bs s).seq = s.seq := rfl
@[simp] theorem hostPushDin_cmd (bs : List Block) (s : State) : (hostPushDin bs s).cmd = s.cmd := rfl
@[simp] theorem hostPushDin_din (bs : List Block) (s : State) : (hostPushDin bs s).din = s.din ++ bs := rfl
@[simp] theorem hostPushDin_dout (bs : List Block) (s : State) : (hostPushDin bs s).dout = s.dout := rfl
@[simp] theorem hostPushDin_resp (bs : List Block) (s : State) : (hostPushDin bs s).resp = s.resp := rfl
@[simp] theorem hostPushDin_rst (bs : List Block) (s : State) : (hostPushDin bs s).rst = s.rst := rfl
@[simp] theorem hostPushDin_fastAvail (bs : List Block) (s : State) : (hostPushDin bs s).fastAvail = s.fastAvail := rfl
@[simp] theorem hostPushDin_endian (bs : List Block) (s : State) : (hostPushDin bs s).endian = s.endian := rfl
@[simp] theorem hostPushDin_hasFastpath (bs : List Block) (s : State) : (hostPushDin bs s).hasFastpath = s.hasFastpath := rfl

@[simp] theorem hardwareReset_eng (s : State) : (hardwareReset s).eng = Engine.zero := rfl
@[simp] theorem hardwareReset_k (s : State) : (hardwareReset s).k = zeroBlock := rfl
@[simp] theorem hardwareReset_kv (s : State) : (hardwareReset s).kv = false := rfl
@[simp] theorem hardwareReset_seq (s : State) : (hardwareReset s).seq = Sequencer.idle := rfl
@[simp] theorem hardwareReset_cmd (s : State) : (hardwareReset s).cmd = [] := rfl
@[simp] theorem hardwareReset_din (s : State) : (hardwareReset s).din = [] := rfl
@[simp] theorem hardwareReset_dout (s : State) : (hardwareReset s).dout = [] := rfl
@[simp] theorem hardwareReset_resp (s : State) : (hardwareReset s).resp = [] := rfl
@[simp] theorem hardwareReset_rst (s : State) : (hardwareReset s).rst = false := rfl
@[simp] theorem hardwareReset_fastAvail (s : State) : (hardwareReset s).fastAvail = s.fastAvail := rfl
@[simp] theorem hardwareReset_endian (s : State) : (hardwareReset s).endian = s.endian := rfl
@[simp] theorem hardwareReset_hasFastpath (s : State) : (hardwareReset s).hasFastpath = s.hasFastpath := rfl

end Sys2Proof.Machine
end

