-- ==== Sys2Proof/Laws/Ops.lean ====
section
/-! SUPPORT. For each shared operation on the ports and on the sequencer, one lemma that says all it can do. -/

namespace Sys2Proof.Machine

/-! The fields of the states that claims speak of. -/

@[simp] theorem completed_eng (g : Engine) (rest : List Block) (outs : List OutEntry) (s : State) :
    (completed s g rest outs).eng = g := rfl
@[simp] theorem completed_k (g : Engine) (rest : List Block) (outs : List OutEntry) (s : State) :
    (completed s g rest outs).k = s.k := rfl
@[simp] theorem completed_kv (g : Engine) (rest : List Block) (outs : List OutEntry) (s : State) :
    (completed s g rest outs).kv = s.kv := rfl
@[simp] theorem completed_seq (g : Engine) (rest : List Block) (outs : List OutEntry) (s : State) :
    (completed s g rest outs).seq = Sequencer.idle := rfl
@[simp] theorem completed_cmd (g : Engine) (rest : List Block) (outs : List OutEntry) (s : State) :
    (completed s g rest outs).cmd = s.cmd := rfl
@[simp] theorem completed_din (g : Engine) (rest : List Block) (outs : List OutEntry) (s : State) :
    (completed s g rest outs).din = rest := rfl
@[simp] theorem completed_dout (g : Engine) (rest : List Block) (outs : List OutEntry) (s : State) :
    (completed s g rest outs).dout = s.dout ++ outs := rfl
@[simp] theorem completed_resp (g : Engine) (rest : List Block) (outs : List OutEntry) (s : State) :
    (completed s g rest outs).resp = s.resp ++ [0#3] := rfl
@[simp] theorem completed_rst (g : Engine) (rest : List Block) (outs : List OutEntry) (s : State) :
    (completed s g rest outs).rst = s.rst := rfl
@[simp] theorem completed_fastAvail (g : Engine) (rest : List Block) (outs : List OutEntry) (s : State) :
    (completed s g rest outs).fastAvail = s.fastAvail := rfl
@[simp] theorem completed_endian (g : Engine) (rest : List Block) (outs : List OutEntry) (s : State) :
    (completed s g rest outs).endian = s.endian := rfl
@[simp] theorem completed_hasFastpath (g : Engine) (rest : List Block) (outs : List OutEntry) (s : State) :
    (completed s g rest outs).hasFastpath = s.hasFastpath := rfl

@[simp] theorem errored_eng (c : BitVec 3) (s : State) :
    (errored s c).eng = s.eng := rfl
@[simp] theorem errored_k (c : BitVec 3) (s : State) :
    (errored s c).k = s.k := rfl
@[simp] theorem errored_kv (c : BitVec 3) (s : State) :
    (errored s c).kv = s.kv := rfl
@[simp] theorem errored_seq (c : BitVec 3) (s : State) :
    (errored s c).seq = Sequencer.idle := rfl
@[simp] theorem errored_cmd (c : BitVec 3) (s : State) :
    (errored s c).cmd = s.cmd := rfl
@[simp] theorem errored_din (c : BitVec 3) (s : State) :
    (errored s c).din = s.din := rfl
@[simp] theorem errored_dout (c : BitVec 3) (s : State) :
    (errored s c).dout = s.dout := rfl
@[simp] theorem errored_resp (c : BitVec 3) (s : State) :
    (errored s c).resp = s.resp ++ [c] := rfl
@[simp] theorem errored_rst (c : BitVec 3) (s : State) :
    (errored s c).rst = s.rst := rfl
@[simp] theorem errored_fastAvail (c : BitVec 3) (s : State) :
    (errored s c).fastAvail = s.fastAvail := rfl
@[simp] theorem errored_endian (c : BitVec 3) (s : State) :
    (errored s c).endian = s.endian := rfl
@[simp] theorem errored_hasFastpath (c : BitVec 3) (s : State) :
    (errored s c).hasFastpath = s.hasFastpath := rfl

@[simp] theorem waiting_eng (g : Engine) (outs : List OutEntry) (q : Sequencer) (s : State) :
    (waiting s g outs q).eng = g := rfl
@[simp] theorem waiting_k (g : Engine) (outs : List OutEntry) (q : Sequencer) (s : State) :
    (waiting s g outs q).k = s.k := rfl
@[simp] theorem waiting_kv (g : Engine) (outs : List OutEntry) (q : Sequencer) (s : State) :
    (waiting s g outs q).kv = s.kv := rfl
@[simp] theorem waiting_seq (g : Engine) (outs : List OutEntry) (q : Sequencer) (s : State) :
    (waiting s g outs q).seq = q := rfl
@[simp] theorem waiting_cmd (g : Engine) (outs : List OutEntry) (q : Sequencer) (s : State) :
    (waiting s g outs q).cmd = s.cmd := rfl
@[simp] theorem waiting_din (g : Engine) (outs : List OutEntry) (q : Sequencer) (s : State) :
    (waiting s g outs q).din = [] := rfl
@[simp] theorem waiting_dout (g : Engine) (outs : List OutEntry) (q : Sequencer) (s : State) :
    (waiting s g outs q).dout = s.dout ++ outs := rfl
@[simp] theorem waiting_resp (g : Engine) (outs : List OutEntry) (q : Sequencer) (s : State) :
    (waiting s g outs q).resp = s.resp := rfl
@[simp] theorem waiting_rst (g : Engine) (outs : List OutEntry) (q : Sequencer) (s : State) :
    (waiting s g outs q).rst = s.rst := rfl
@[simp] theorem waiting_fastAvail (g : Engine) (outs : List OutEntry) (q : Sequencer) (s : State) :
    (waiting s g outs q).fastAvail = s.fastAvail := rfl
@[simp] theorem waiting_endian (g : Engine) (outs : List OutEntry) (q : Sequencer) (s : State) :
    (waiting s g outs q).endian = s.endian := rfl
@[simp] theorem waiting_hasFastpath (g : Engine) (outs : List OutEntry) (q : Sequencer) (s : State) :
    (waiting s g outs q).hasFastpath = s.hasFastpath := rfl

/-- A pop takes the head of `din` and changes nothing else (20_memory R47). -/
theorem dinPop_some {s t : State} {q : Block} (h : dinPop s = some (q, t)) :
    s.din = q :: t.din ∧ t = { s with din := t.din } := by
  unfold dinPop at h
  split at h
  · cases h
  · rename_i hd
    cases h
    exact ⟨hd, rfl⟩

@[simp] theorem dinPop_eq_none (s : State) : dinPop s = none ↔ s.din = [] := by
  unfold dinPop
  split <;> simp_all

theorem dinPop_of_cons {s : State} {q : Block} {rest : List Block} (h : s.din = q :: rest) :
    dinPop s = some (q, { s with din := rest }) := by
  simp [dinPop, h]

/-- Without a held block the absorb block of a round is the head of `din`. -/
theorem takeAbsorb_of_none {s : State} (h : s.seq.held = none) : takeAbsorb s = dinPop s := by
  simp [takeAbsorb, h]

theorem takeAbsorb_of_some {s : State} {q : Block} (h : s.seq.held = some q) :
    takeAbsorb s = some (q, { s with seq := { s.seq with held := none } }) := by
  simp [takeAbsorb, h]

/-- A round has no absorb block exactly when none is held and `din` is empty. -/
theorem takeAbsorb_eq_none (s : State) : takeAbsorb s = none ↔ s.seq.held = none ∧ s.din = [] := by
  unfold takeAbsorb
  split <;> simp_all

/-- Taking the absorb block changes `din` or the held block, nothing else. -/
theorem takeAbsorb_some {s t : State} {q : Block} (h : takeAbsorb s = some (q, t)) :
    t = { s with din := t.din, seq := { s.seq with held := none } } ∧
      ((s.seq.held = some q ∧ t.din = s.din) ∨ (s.seq.held = none ∧ s.din = q :: t.din)) := by
  unfold takeAbsorb at h
  split at h
  · rename_i hq
    cases h
    exact ⟨rfl, .inl ⟨hq, rfl⟩⟩
  · rename_i hn
    obtain ⟨hd, ht⟩ := dinPop_some h
    exact ⟨by rw [ht, ← hn], .inr ⟨hn, hd⟩⟩

/-- One round on the machine: the engine moves, one whole entry is pushed if the round has output (40_round_engine R89). -/
theorem roundStep_eq (f : Streams) (abs msk : Option Block) (s : State) :
    roundStep f abs msk s =
      { s with
        eng := roundEngine s.endian abs s.eng
        dout := s.dout ++ if f.out then [⟨roundOutput s.endian msk s.eng, 32#6⟩] else [] } := by
  cases h : f.out <;> simp [roundStep, round, h, doutPush]

/-- Taking a command removes the head of `cmd`, nothing else (41_core_commands R93). -/
theorem takeCommand_of_cons {s : State} {w : Word} {rest : List Word} (h : s.cmd = w :: rest) :
    takeCommand s = some (w, { s with cmd := rest }) := by
  simp [takeCommand, h]

/-- A command carried out in full responds `OK` and leaves the sequencer idle. -/
theorem finish_eq (s : State) : finish s = { s with resp := s.resp ++ [0#3], seq := Sequencer.idle } := rfl

/-- An error is its code and an idle sequencer (60_exceptions R139). -/
theorem raiseErr_eq (r : Response) (s : State) : raiseErr r s = errored s (responseCode r) := rfl

theorem responseCode_le (r : Response) : (responseCode r).toNat ≤ 4 := by
  cases r <;> decide

end Sys2Proof.Machine
end

