-- ==== Sys2Proof/Laws/Round.lean ====
section
/-! SUPPORT. What each part of the round computes, word by word, and how rounds compose over lists. -/

namespace Sys2Proof.Machine

@[simp] theorem vector_get_ofFn {α : Type} {n : Nat} (f : Fin n → α) (i : Fin n) : (Vector.ofFn f).get i = f i := by
  simp [Vector.get_eq_getElem]

theorem vector_ext_get {α : Type} {n : Nat} {x y : Vector α n} (h : ∀ i : Fin n, x.get i = y.get i) : x = y := by
  apply Vector.ext
  intro i hi
  exact h ⟨i, hi⟩

@[simp] theorem vector_get_replicate {α : Type} {n : Nat} (v : α) (i : Fin n) : (Vector.replicate n v).get i = v := by
  simp [Vector.get_eq_getElem]

theorem vector_get_set {α : Type} {n : Nat} (x : Vector α n) (i j : Fin n) (v : α) :
    (x.set i.val v i.isLt).get j = if i = j then v else x.get j := by
  simp only [Vector.get_eq_getElem, Vector.getElem_set, Fin.ext_iff]

@[simp] theorem blockWords_get (e : Endian) (blk : Block) (i : Fin 8) : (blockWords e blk).get i = word e blk i := by
  simp [blockWords]

@[simp] theorem xorBlock_get (x y : Block) (k : Fin 32) : (xorBlock x y).get k = x.get k ^^^ y.get k := by
  simp [xorBlock]

theorem wordsBlock_get (e : Endian) (ws : Stage) (k : Fin 32) :
    (wordsBlock e ws).get k = byteOfWord e (ws.get ⟨k.val / 4, by omega⟩) ⟨k.val % 4, by omega⟩ := by
  simp [wordsBlock]

/-- Masking twice with the same mask gives the data back. -/
theorem xorBlock_cancel (x y : Block) : xorBlock x (xorBlock x y) = y := by
  apply vector_ext_get
  intro k
  simp

theorem padBlock_get (len : Nat) (f : Block) (k : Fin 32) :
    (padBlock len f).get k = if k.val < len then f.get k else if k.val = len then padByte else 0#8 := by
  simp [padBlock]

theorem truncateBlock_get (dsize : Nat) (o : Block) (k : Fin 32) :
    (truncateBlock dsize o).get k = if k.val < dsize then o.get k else 0#8 := by
  simp [truncateBlock]

@[simp] theorem feedWords_get (a : Vector Word 17) (i : Fin 8) :
    (feedWords a).get i = a.get ⟨i.val + 1, by omega⟩ := by
  simp [feedWords]

@[simp] theorem outWords_get (a : Vector Word 17) (i : Fin 8) :
    (outWords a).get i = a.get ⟨i.val + 9, by omega⟩ := by
  simp [outWords]

theorem gamma_get (a : Vector Word 17) (i : Fin 17) :
    (gamma a).get i = a.get i ^^^ (a.get (i + 1) ||| ~~~ (a.get (i + 2))) := by
  simp [gamma]

theorem piStep_get (g : Vector Word 17) (k : Fin 17) :
    (piStep g).get k = rotl (g.get (7 * k)) (rotAmount k) := by
  simp [piStep]

theorem theta_get (c : Vector Word 17) (j : Fin 17) :
    (theta c).get j = c.get j ^^^ c.get (j + 1) ^^^ c.get (j + 4) := by
  simp [theta]

theorem sigma_get_zero (th : Vector Word 17) (x y : Stage) : (sigma th x y).get 0 = th.get 0 ^^^ sigmaConst := by
  simp [sigma]

theorem sigma_get_low (th : Vector Word 17) (x y : Stage) (i : Fin 8) :
    (sigma th x y).get ⟨i.val + 1, by omega⟩ = th.get ⟨i.val + 1, by omega⟩ ^^^ x.get i := by
  have h8 : i.val + 1 ≤ 8 := by omega
  simp [sigma, h8]

theorem sigma_get_high (th : Vector Word 17) (x y : Stage) (i : Fin 8) :
    (sigma th x y).get ⟨i.val + 9, by omega⟩ = th.get ⟨i.val + 9, by omega⟩ ^^^ y.get i := by
  have h8 : ¬ i.val + 9 ≤ 8 := by omega
  simp [sigma, h8]

theorem stage0_ne_stage25 (p : Fin 32) : stage0 p ≠ stage25 p := by
  revert p
  decide

/-- The buffer after step 2, stage by stage: only `b0` and `b25` change (40_round_engine R78). -/
theorem bufferUpdate_get (x : Stage) (p t : Fin 32) (b : Vector Stage 32) :
    (bufferUpdate x p b).get t =
      if t = stage25 p then Vector.ofFn fun j => (b.get (stage25 p)).get j ^^^ (b.get (stage0 p)).get (j + 2)
      else if t = stage0 p then Vector.ofFn fun i => x.get i ^^^ (b.get (stage0 p)).get i
      else b.get t := by
  simp only [bufferUpdate, vector_get_set, eq_comm (a := t)]

@[simp] theorem round_fst (e : Endian) (abs : Option Block) (out : Bool) (msk : Option Block) (g : Engine) :
    (round e abs out msk g).1 = roundEngine e abs g := rfl

@[simp] theorem round_snd (e : Endian) (abs : Option Block) (out : Bool) (msk : Option Block) (g : Engine) :
    (round e abs out msk g).2 = if out then some (roundOutput e msk g) else none := rfl

@[simp] theorem roundEngine_p (e : Endian) (abs : Option Block) (g : Engine) :
    (roundEngine e abs g).p = nextStage g.p := rfl

theorem roundsOver_append (e : Endian) (xs ys : List (Option Block)) (g : Engine) :
    roundsOver e (xs ++ ys) g = roundsOver e ys (roundsOver e xs g) := by
  induction xs generalizing g with
  | nil => rfl
  | cons x xs ih => simp [roundsOver, ih]

/-- Blank rounds are rounds over a list without blocks. -/
theorem blankRounds_eq_roundsOver (e : Endian) (n : Nat) (g : Engine) :
    blankRounds e n g = roundsOver e (List.replicate n none) g := by
  induction n generalizing g with
  | zero => rfl
  | succ n ih => simp [blankRounds, roundsOver, List.replicate_succ, ih]

@[simp] theorem pushAll_cons (e : Endian) (q : Block) (qs : List Block) (g : Engine) :
    pushAll e (q :: qs) g = pushAll e qs (roundEngine e (some q) g) := rfl

@[simp] theorem keystream_length (e : Endian) (n : Nat) (g : Engine) : (keystream e n g).length = n := by
  induction n generalizing g with
  | zero => rfl
  | succ n ih => simp [keystream, ih]

@[simp] theorem pushOutputs_length (e : Endian) (qs : List Block) (g : Engine) :
    (pushOutputs e qs g).length = qs.length := by
  induction qs generalizing g with
  | nil => rfl
  | cons q qs ih => simp [pushOutputs, ih]

end Sys2Proof.Machine
end

