-- ==== Sys2Proof/Laws/Iterate.lean ====
section
/-! SUPPORT. What iterating rounds can do (40_round_engine R90, 70_reset_and_hazards R164): the frame of `iterate`, its two
outcomes, and its closed forms when the blocks are there. -/

namespace Sys2Proof.Machine

/-- The outcome of iterating up to `n` rounds from `s`: carried out in full, or waiting for a block with 1 to `n` rounds to
run, an absorb block held only by a round that also takes a mask. -/
def IterateOutcome (f : Streams) (n : Nat) (s t : State) : Prop :=
  (t.seq = Sequencer.idle ∧ t.resp = s.resp ++ [0#3]) ∨
  (t.resp = s.resp ∧ t.din = [] ∧ (f.abs = true ∨ f.msk = true) ∧
    ∃ m held, 1 ≤ m ∧ m ≤ n ∧ t.seq = { s.seq with rc := BitVec.ofNat 16 m, held := held } ∧
      (held = none ∨ (f.abs = true ∧ f.msk = true)))

/-- `iterate` by one round. -/
theorem iterate_succ (f : Streams) (n : Nat) (s : State) :
    iterate f (n + 1) s =
      if f.abs then
        match takeAbsorb s with
        | none => waitBlock (n + 1) none s
        | some (q, s1) =>
          if f.msk then
            match dinPop s1 with
            | none => waitBlock (n + 1) (some q) s1
            | some (m, s2) => iterate f n (roundStep f (some q) (some m) s2)
          else iterate f n (roundStep f (some q) none s1)
      else if f.msk then
        match dinPop s with
        | none => waitBlock (n + 1) none s
        | some (m, s1) => iterate f n (roundStep f none (some m) s1)
      else iterate f n (roundStep f none none s) := rfl

/-- One round of `iterate` with its blocks at hand goes on with the remaining rounds; otherwise it waits. -/
theorem iterate_succ_cases (f : Streams) (n : Nat) (s : State) (hs : s.seq.held = none ∨ (f.abs = true ∧ f.msk = true)) :
    (∃ abs msk s1, iterate f (n + 1) s = iterate f n (roundStep f abs msk s1) ∧
      s1 = { s with din := s1.din, seq := { s.seq with held := none } } ∧ ∃ taken, s.din = taken ++ s1.din) ∨
    (∃ s1 held, iterate f (n + 1) s = waitBlock (n + 1) held s1 ∧ s1.din = [] ∧ (f.abs = true ∨ f.msk = true) ∧
      (held = none ∨ (f.abs = true ∧ f.msk = true)) ∧
      s1 = { s with din := [], seq := { s.seq with held := s1.seq.held } } ∧ ∃ taken, s.din = taken ++ s1.din) := by
  have hself : s.seq.held = none → s = { s with din := s.din, seq := { s.seq with held := none } } := by
    intro h
    conv => lhs; rw [show s = { s with seq := { s.seq with held := s.seq.held } } from rfl, h]
  rw [iterate_succ]
  cases ha : f.abs
  · have hn : s.seq.held = none := by
      rcases hs with h | h
      · exact h
      · rw [ha] at h; exact absurd h.1 (by decide)
    cases hm : f.msk
    · exact .inl ⟨none, none, s, by simp, hself hn, [], rfl⟩
    · cases hp : dinPop s with
      | none =>
        have hd := (dinPop_eq_none s).1 hp
        refine .inr ⟨s, none, by simp, hd, .inr rfl, .inl rfl, ?_, [], rfl⟩
        conv => lhs; rw [hself hn]
        rw [hd, hn]
      | some x =>
        obtain ⟨m, s1⟩ := x
        obtain ⟨hd, h1⟩ := dinPop_some hp
        refine .inl ⟨none, some m, s1, by simp, ?_, [m], hd⟩
        conv => lhs; rw [h1, hself hn]
  · cases hp : takeAbsorb s with
    | none =>
      obtain ⟨hn, hd⟩ := (takeAbsorb_eq_none s).1 hp
      refine .inr ⟨s, none, by simp, hd, .inl rfl, .inl rfl, ?_, [], rfl⟩
      conv => lhs; rw [hself hn]
      rw [hd, hn]
    | some x =>
      obtain ⟨q, s1⟩ := x
      obtain ⟨h1, hcase⟩ := takeAbsorb_some hp
      have htaken : ∃ taken, s.din = taken ++ s1.din := by
        rcases hcase with ⟨-, h⟩ | ⟨-, h⟩
        · exact ⟨[], by simp [h]⟩
        · exact ⟨[q], by simp [h]⟩
      cases hm : f.msk
      · exact .inl ⟨some q, none, s1, by simp, h1, htaken⟩
      · cases hp2 : dinPop s1 with
        | none =>
          have hd := (dinPop_eq_none s1).1 hp2
          refine .inr ⟨s1, some q, by simp [hp2], hd, .inl rfl, .inr ⟨rfl, rfl⟩, ?_, htaken⟩
          conv => lhs; rw [h1]
          rw [hd, h1]
        | some y =>
          obtain ⟨m, s2⟩ := y
          obtain ⟨hd2, h2⟩ := dinPop_some hp2
          refine .inl ⟨some q, some m, s2, by simp [hp2], ?_, ?_⟩
          · conv => lhs; rw [h2, h1]
          · obtain ⟨taken, ht⟩ := htaken
            exact ⟨taken ++ [m], by simp [ht, hd2]⟩

/-- The frame and the two outcomes of `iterate`. -/
theorem iterate_spec (f : Streams) (n : Nat) (s : State) (hs : s.seq.held = none ∨ (f.abs = true ∧ f.msk = true)) :
    let t := iterate f n s
    t.k = s.k ∧ t.kv = s.kv ∧ t.cmd = s.cmd ∧ t.rst = s.rst ∧ t.fastAvail = s.fastAvail ∧ t.endian = s.endian ∧
      t.hasFastpath = s.hasFastpath ∧ (∃ taken, s.din = taken ++ t.din) ∧
      (∃ outs, t.dout = s.dout ++ fullEntries outs) ∧ IterateOutcome f n s t := by
  induction n generalizing s with
  | zero =>
    refine ⟨rfl, rfl, rfl, rfl, rfl, rfl, rfl, ⟨[], rfl⟩, ⟨[], by simp [iterate, fullEntries]⟩, .inl ⟨rfl, rfl⟩⟩
  | succ n ih =>
    rcases iterate_succ_cases f n s hs with ⟨abs, msk, s1, heq, h1, taken, htk⟩ | ⟨s1, held, heq, hd, hf, hh, h1, taken, htk⟩
    · simp only [heq]
      obtain ⟨i1, i2, i3, i4, i5, i6, i7, ⟨tk, i8⟩, ⟨outs, i9⟩, i10⟩ :=
        ih (roundStep f abs msk s1) (.inl (by rw [roundStep_eq, h1]))
      rw [roundStep_eq] at i1 i2 i3 i4 i5 i6 i7 i8 i9 i10
      refine ⟨by rw [roundStep_eq, i1, h1], by rw [roundStep_eq, i2, h1], by rw [roundStep_eq, i3, h1],
        by rw [roundStep_eq, i4, h1], by rw [roundStep_eq, i5, h1], by rw [roundStep_eq, i6, h1],
        by rw [roundStep_eq, i7, h1], ?_, ?_, ?_⟩
      · exact ⟨taken ++ tk, by rw [htk, roundStep_eq, List.append_assoc]; congr 1⟩
      · refine ⟨(if f.out then [roundOutput s1.endian msk s1.eng] else []) ++ outs, ?_⟩
        have h9 : s1.dout = s.dout := by rw [h1]
        rw [roundStep_eq, i9, h9, List.append_assoc]
        cases f.out <;> simp [fullEntries]
      · rw [roundStep_eq]
        rcases i10 with ⟨ha, hb⟩ | ⟨hr, hd, hf, m, held, hm1, hm2, hq, hh⟩
        · exact .inl ⟨ha, by rw [hb, h1]⟩
        · exact .inr ⟨by rw [hr, h1], hd, hf, m, held, hm1, by omega, by rw [hq, h1], hh⟩
    · simp only [heq]
      refine ⟨by simp; rw [h1], by simp; rw [h1], by simp; rw [h1], by simp; rw [h1], by simp; rw [h1], by simp; rw [h1],
        by simp; rw [h1], ⟨taken, htk⟩, ⟨[], by simp [fullEntries]; rw [h1]⟩, .inr ⟨by simp; rw [h1], by simp [hd], hf,
        n + 1, held, by omega, by omega, by simp; rw [h1]; exact ⟨rfl, rfl⟩, hh⟩⟩

/-- Pull rounds need no block. -/
theorem iterate_pull (f : Streams) (ha : f.abs = false) (hm : f.msk = false) (n : Nat) (s : State) :
    iterate f n s = completed s (blankRounds s.endian n s.eng) s.din
      (if f.out then fullEntries (keystream s.endian n s.eng) else []) := by
  induction n generalizing s with
  | zero => simp [iterate, finish_eq, completed, blankRounds, keystream, fullEntries]
  | succ n ih =>
    rw [iterate_succ, ha, hm]
    simp only [Bool.false_eq_true, if_false]
    rw [ih, roundStep_eq]
    cases f.out <;> simp [completed, blankRounds, keystream, fullEntries]

/-- Push rounds run through the blocks that are there, in order (41_core_commands R96, R99). -/
theorem iterate_push (f : Streams) (ha : f.abs = true) (hm : f.msk = false) (m : Nat) (qs rest : List Block) (s : State)
    (hh : s.seq.held = none) (hd : s.din = qs ++ rest) :
    iterate f (qs.length + m) s = iterate f m
      { s with
        eng := pushAll s.endian qs s.eng
        din := rest
        dout := s.dout ++ if f.out then fullEntries (pushOutputs s.endian qs s.eng) else [] } := by
  induction qs generalizing s with
  | nil =>
    have : s = { s with din := rest } := by rw [← show s.din = rest from hd]
    conv => lhs; rw [this]
    cases f.out <;> simp [pushAll, roundsOver, pushOutputs, fullEntries]
  | cons q qs ih =>
    have hp : takeAbsorb s = some (q, { s with din := qs ++ rest }) := by
      rw [takeAbsorb_of_none hh]; exact dinPop_of_cons hd
    rw [show (q :: qs).length + m = (qs.length + m) + 1 from by simp; omega, iterate_succ, ha, hm, hp]
    simp only [if_true, Bool.false_eq_true, if_false]
    rw [ih _ (by rw [roundStep_eq]; exact hh) (by rw [roundStep_eq]), roundStep_eq]
    cases f.out <;> simp [pushOutputs, fullEntries]

/-- Masked pull rounds run through the mask blocks that are there, in order (41_core_commands R98). -/
theorem iterate_mask (f : Streams) (ha : f.abs = false) (ho : f.out = true) (hm : f.msk = true) (m : Nat)
    (ms rest : List Block) (s : State) (hd : s.din = ms ++ rest) :
    iterate f (ms.length + m) s = iterate f m
      { s with
        eng := blankRounds s.endian ms.length s.eng
        din := rest
        dout := s.dout ++ fullEntries (List.zipWith xorBlock (keystream s.endian ms.length s.eng) ms) } := by
  induction ms generalizing s with
  | nil =>
    have : s = { s with din := rest } := by rw [← show s.din = rest from hd]
    conv => lhs; rw [this]
    simp [blankRounds, keystream, fullEntries]
  | cons q ms ih =>
    rw [show (q :: ms).length + m = (ms.length + m) + 1 from by simp; omega, iterate_succ, ha, hm,
      dinPop_of_cons (rest := ms ++ rest) hd]
    simp only [if_true, Bool.false_eq_true, if_false]
    rw [ih _ (by rw [roundStep_eq]), roundStep_eq]
    simp [blankRounds, keystream, fullEntries, ho, roundOutput]

/-- Masked push rounds pop absorb and mask block in turn (41_core_commands R100). -/
theorem iterate_push_mask (f : Streams) (ha : f.abs = true) (ho : f.out = true) (hm : f.msk = true) (m : Nat)
    (qms : List (Block × Block)) (rest : List Block) (s : State)
    (hh : s.seq.held = none) (hd : s.din = interleave qms ++ rest) :
    iterate f (qms.length + m) s = iterate f m
      { s with
        eng := pushAll s.endian (qms.map Prod.fst) s.eng
        din := rest
        dout := s.dout ++ fullEntries
          (List.zipWith xorBlock (pushOutputs s.endian (qms.map Prod.fst) s.eng) (qms.map Prod.snd)) } := by
  induction qms generalizing s with
  | nil =>
    have : s = { s with din := rest } := by rw [← show s.din = rest from hd]
    conv => lhs; rw [this]
    simp [pushAll, roundsOver, pushOutputs, fullEntries]
  | cons qm qms ih =>
    have hd' : s.din = qm.1 :: qm.2 :: (interleave qms ++ rest) := by rw [hd]; simp [interleave]
    have hp : takeAbsorb s = some (qm.1, { s with din := qm.2 :: (interleave qms ++ rest) }) := by
      rw [takeAbsorb_of_none hh]; exact dinPop_of_cons hd'
    rw [show (qm :: qms).length + m = (qms.length + m) + 1 from by simp; omega, iterate_succ, ha, hm, hp]
    simp only [if_true]
    rw [dinPop_of_cons (s := { s with din := qm.2 :: (interleave qms ++ rest) }) rfl]
    simp only []
    rw [ih _ (by rw [roundStep_eq]; exact hh) (by rw [roundStep_eq]), roundStep_eq]
    simp [pushOutputs, fullEntries, ho, roundOutput]

/-- A state with another value in `RC`. -/
def setRc (r : BitVec 16) (s : State) : State := { s with seq := { s.seq with rc := r } }

theorem setRc_roundStep (r : BitVec 16) (f : Streams) (abs msk : Option Block) (s : State) :
    roundStep f abs msk (setRc r s) = setRc r (roundStep f abs msk s) := by
  rw [roundStep_eq, roundStep_eq]
  rfl

theorem setRc_dinPop (r : BitVec 16) (s : State) :
    dinPop (setRc r s) = (dinPop s).map fun x => (x.1, setRc r x.2) := by
  have : (setRc r s).din = s.din := rfl
  unfold dinPop
  rw [this]
  cases s.din <;> rfl

theorem setRc_takeAbsorb (r : BitVec 16) (s : State) :
    takeAbsorb (setRc r s) = (takeAbsorb s).map fun x => (x.1, setRc r x.2) := by
  cases hh : s.seq.held with
  | none => rw [takeAbsorb_of_none (show (setRc r s).seq.held = none from hh), takeAbsorb_of_none hh, setRc_dinPop]
  | some q => rw [takeAbsorb_of_some (show (setRc r s).seq.held = some q from hh), takeAbsorb_of_some hh]; rfl

@[simp] theorem setRc_waitBlock (r : BitVec 16) (n : Nat) (held : Option Block) (s : State) :
    waitBlock n held (setRc r s) = waitBlock n held s := rfl

/-- What `RC` holds when an iteration starts does not matter: it is set when a command waits and dropped when it ends. -/
theorem iterate_setRc (f : Streams) (n : Nat) (r : BitVec 16) (s : State) : iterate f n (setRc r s) = iterate f n s := by
  induction n generalizing s with
  | zero => rfl
  | succ n ih =>
    rw [iterate_succ, iterate_succ, setRc_takeAbsorb]
    cases f.abs
    · cases f.msk
      · simp [setRc_roundStep, ih]
      · cases hp : dinPop s <;> simp [setRc_dinPop, hp, setRc_roundStep, ih]
    · cases hp : takeAbsorb s with
      | none => simp
      | some x =>
        cases f.msk
        · simp [setRc_roundStep, ih]
        · cases hp2 : dinPop x.2 <;> simp [setRc_dinPop, hp2, setRc_roundStep, ih]

/-- A pop takes the same block with more blocks behind. -/
theorem dinPop_more {s t : State} {q : Block} (more : List Block) (h : dinPop s = some (q, t)) :
    dinPop (hostPushDin more s) = some (q, hostPushDin more t) := by
  obtain ⟨hd, ht⟩ := dinPop_some h
  rw [dinPop_of_cons (show (hostPushDin more s).din = q :: (t.din ++ more) by simp [hd])]
  conv => rhs; rw [ht]
  rfl

/-- The absorb block is the same with more blocks behind. -/
theorem takeAbsorb_more {s t : State} {q : Block} (more : List Block) (h : takeAbsorb s = some (q, t)) :
    takeAbsorb (hostPushDin more s) = some (q, hostPushDin more t) := by
  cases hh : s.seq.held with
  | none =>
    rw [takeAbsorb_of_none hh] at h
    rw [takeAbsorb_of_none (by exact hh)]
    exact dinPop_more more h
  | some q' =>
    rw [takeAbsorb_of_some hh] at h
    cases h
    rw [takeAbsorb_of_some (show (hostPushDin more s).seq.held = some q from hh)]
    rfl

@[simp] theorem hostPushDin_roundStep (f : Streams) (abs msk : Option Block) (more : List Block) (s : State) :
    roundStep f abs msk (hostPushDin more s) = hostPushDin more (roundStep f abs msk s) := by
  rw [roundStep_eq, roundStep_eq]
  rfl

@[simp] theorem roundStep_resp (f : Streams) (abs msk : Option Block) (s : State) :
    (roundStep f abs msk s).resp = s.resp := by rw [roundStep_eq]

@[simp] theorem roundStep_seq (f : Streams) (abs msk : Option Block) (s : State) :
    (roundStep f abs msk s).seq = s.seq := by rw [roundStep_eq]

/-- More blocks behind those already on `din` do not change what rounds do with the first ones: an iteration that was
carried out in full leaves them there, one that waited goes on as if they had been there (70_reset_and_hazards R164). -/
theorem iterate_more (f : Streams) (more : List Block) (n : Nat) (s : State)
    (hs : s.seq.held = none ∨ (f.abs = true ∧ f.msk = true)) (hn : n < 65536) :
    ((iterate f n s).resp = s.resp ++ [0#3] →
      iterate f n (hostPushDin more s) = hostPushDin more (iterate f n s)) ∧
    ((iterate f n s).resp = s.resp →
      iterate f (iterate f n s).seq.rc.toNat (hostPushDin more (iterate f n s)) =
        iterate f n (hostPushDin more s)) := by
  induction n generalizing s with
  | zero => exact ⟨fun _ => rfl, fun h => by simp [iterate] at h⟩
  | succ n ih =>
    have hrc : (BitVec.ofNat 16 (n + 1)).toNat = n + 1 := by simp; omega
    -- a waiting round answers nothing, and goes on from its own start
    have hwait : ∀ held (s1 : State), s1.resp = s.resp →
        iterate f (n + 1) (hostPushDin more (waitBlock (n + 1) held s1)) = iterate f (n + 1) (hostPushDin more s) →
        ((waitBlock (n + 1) held s1).resp = s.resp ++ [0#3] →
          iterate f (n + 1) (hostPushDin more s) = hostPushDin more (waitBlock (n + 1) held s1)) ∧
        ((waitBlock (n + 1) held s1).resp = s.resp →
          iterate f (waitBlock (n + 1) held s1).seq.rc.toNat (hostPushDin more (waitBlock (n + 1) held s1)) =
            iterate f (n + 1) (hostPushDin more s)) := by
      intro held s1 h1 h2
      refine ⟨fun h => by simp [h1] at h, fun _ => ?_⟩
      simpa [hrc] using h2
    have hgo : ∀ abs msk (s1 : State), s1.resp = s.resp → s1.seq.held = none →
        iterate f (n + 1) s = iterate f n (roundStep f abs msk s1) →
        iterate f (n + 1) (hostPushDin more s) = iterate f n (hostPushDin more (roundStep f abs msk s1)) →
        ((iterate f (n + 1) s).resp = s.resp ++ [0#3] →
          iterate f (n + 1) (hostPushDin more s) = hostPushDin more (iterate f (n + 1) s)) ∧
        ((iterate f (n + 1) s).resp = s.resp →
          iterate f (iterate f (n + 1) s).seq.rc.toNat (hostPushDin more (iterate f (n + 1) s)) =
            iterate f (n + 1) (hostPushDin more s)) := by
      intro abs msk s1 h1 h2 h3 h4
      have := ih (roundStep f abs msk s1) (.inl (by simpa using h2)) (by omega)
      rw [h3, h4]
      simpa [h1] using this
    have hnone : ¬ (f.abs = true ∧ f.msk = true) → s.seq.held = none := fun h => hs.resolve_right h
    cases ha : f.abs
    · have hn : s.seq.held = none := hnone (by simp [ha])
      cases hm : f.msk
      · exact hgo none none s rfl hn (by simp [iterate_succ, ha, hm]) (by simp [iterate_succ, ha, hm])
      · cases hp : dinPop s with
        | none =>
          rw [show iterate f (n + 1) s = waitBlock (n + 1) none s by simp [iterate_succ, ha, hm, hp]]
          refine hwait none s rfl ?_
          rw [← iterate_setRc f (n + 1) (BitVec.ofNat 16 (n + 1)) (hostPushDin more s)]
          congr 1
          simp [hostPushDin, waitBlock, setRc, hn]
        | some x =>
          obtain ⟨m, s1⟩ := x
          obtain ⟨-, h1⟩ := dinPop_some hp
          exact hgo none (some m) s1 (by rw [h1]) (by rw [h1]; exact hn) (by simp [iterate_succ, ha, hm, hp])
            (by simp [iterate_succ, ha, hm, dinPop_more more hp])
    · cases hp : takeAbsorb s with
      | none =>
        have hn := ((takeAbsorb_eq_none s).1 hp).1
        rw [show iterate f (n + 1) s = waitBlock (n + 1) none s by simp [iterate_succ, ha, hp]]
        refine hwait none s rfl ?_
        rw [← iterate_setRc f (n + 1) (BitVec.ofNat 16 (n + 1)) (hostPushDin more s)]
        congr 1
        simp [hostPushDin, waitBlock, setRc, hn]
      | some x =>
        obtain ⟨q, s1⟩ := x
        obtain ⟨h1, hq⟩ := takeAbsorb_some hp
        have hr : s1.resp = s.resp := by rw [h1]
        have hn : s1.seq.held = none := by rw [h1]
        cases hm : f.msk
        · exact hgo (some q) none s1 hr hn (by simp [iterate_succ, ha, hm, hp])
            (by simp [iterate_succ, ha, hm, takeAbsorb_more more hp])
        · cases hp2 : dinPop s1 with
          | none =>
            rw [show iterate f (n + 1) s = waitBlock (n + 1) (some q) s1 by simp [iterate_succ, ha, hm, hp, hp2]]
            refine hwait (some q) s1 hr ?_
            rw [iterate_succ, iterate_succ, ha, hm, takeAbsorb_more more hp,
              takeAbsorb_of_some (show (hostPushDin more (waitBlock (n + 1) (some q) s1)).seq.held = some q from rfl)]
            have hseq : { hostPushDin more (waitBlock (n + 1) (some q) s1) with
                seq := { (hostPushDin more (waitBlock (n + 1) (some q) s1)).seq with held := none } } =
                setRc (BitVec.ofNat 16 (n + 1)) (hostPushDin more s1) := by
              simp [hostPushDin, waitBlock, setRc, hn]
            simp only [if_true, hseq, setRc_dinPop]
            cases dinPop (hostPushDin more s1) <;> simp [setRc_roundStep, iterate_setRc]
          | some y =>
            obtain ⟨m, s2⟩ := y
            obtain ⟨-, h2⟩ := dinPop_some hp2
            exact hgo (some q) (some m) s2 (by rw [h2]; exact hr) (by rw [h2]; exact hn)
              (by simp [iterate_succ, ha, hm, hp, hp2])
              (by simp [iterate_succ, ha, hm, takeAbsorb_more more hp, dinPop_more more hp2])

end Sys2Proof.Machine
end

