-- ==== Sys2Proof/Laws/Exec.lean ====
section
/-! SUPPORT. Each command's meaning in the terms of the shared operations: a counted command is `iterate` from the state in
which it was latched; the others wait for their one block or do their work with it. `exec_cases` and `step_cases` say once
all that a command and a step can do. -/

namespace Sys2Proof.Machine

/-- `s` with the command `i` latched, `rounds` rounds to run and the sample `fs` of the gate. -/
def started (i : Instr) (rounds : Nat) (fs : Option Bool) (s : State) : State :=
  { s with seq := { phase := .busy i, rc := BitVec.ofNat 16 rounds, held := none, fastSample := fs } }

@[simp] theorem started_eng (i : Instr) (n : Nat) (fs : Option Bool) (s : State) :
    (started i n fs s).eng = s.eng := rfl
@[simp] theorem started_k (i : Instr) (n : Nat) (fs : Option Bool) (s : State) :
    (started i n fs s).k = s.k := rfl
@[simp] theorem started_kv (i : Instr) (n : Nat) (fs : Option Bool) (s : State) :
    (started i n fs s).kv = s.kv := rfl
@[simp] theorem started_seq (i : Instr) (n : Nat) (fs : Option Bool) (s : State) :
    (started i n fs s).seq = { phase := .busy i, rc := BitVec.ofNat 16 n, held := none, fastSample := fs } := rfl
@[simp] theorem started_cmd (i : Instr) (n : Nat) (fs : Option Bool) (s : State) :
    (started i n fs s).cmd = s.cmd := rfl
@[simp] theorem started_din (i : Instr) (n : Nat) (fs : Option Bool) (s : State) :
    (started i n fs s).din = s.din := rfl
@[simp] theorem started_dout (i : Instr) (n : Nat) (fs : Option Bool) (s : State) :
    (started i n fs s).dout = s.dout := rfl
@[simp] theorem started_resp (i : Instr) (n : Nat) (fs : Option Bool) (s : State) :
    (started i n fs s).resp = s.resp := rfl
@[simp] theorem started_rst (i : Instr) (n : Nat) (fs : Option Bool) (s : State) :
    (started i n fs s).rst = s.rst := rfl
@[simp] theorem started_fastAvail (i : Instr) (n : Nat) (fs : Option Bool) (s : State) :
    (started i n fs s).fastAvail = s.fastAvail := rfl
@[simp] theorem started_endian (i : Instr) (n : Nat) (fs : Option Bool) (s : State) :
    (started i n fs s).endian = s.endian := rfl
@[simp] theorem started_hasFastpath (i : Instr) (n : Nat) (fs : Option Bool) (s : State) :
    (started i n fs s).hasFastpath = s.hasFastpath := rfl

theorem latch_eq_started (i : Instr) (n : Nat) (s : State) : latch i n s = started i n none s := rfl

theorem sampleGate_latch (i : Instr) (n : Nat) (s : State) : sampleGate (latch i n s) = started i n (gateSample s) s := rfl

/-- `RC` counts every `COUNT` a word can carry. -/
theorem count_toNat {n : Nat} (h : n < 65536) : (BitVec.ofNat 16 n).toNat = n := by
  simp
  omega

theorem runRounds_started (f : Streams) (i : Instr) (n : Nat) (fs : Option Bool) (s : State) (h : n < 65536) :
    runRounds f (started i n fs s) = iterate f n (started i n fs s) := by
  rw [runRounds, show (started i n fs s).seq.rc = BitVec.ofNat 16 n from rfl, count_toNat h]

theorem exec_pull {n : Nat} (s : State) (h : n < 65536) :
    exec (.pull n) s = .next (iterate blankPull n (started (.pull n) n none s)) := by
  rw [← runRounds_started _ _ _ _ _ h]; rfl

theorem exec_push {n : Nat} (s : State) (h : n < 65536) :
    exec (.push n) s = .next (iterate pushOnly n (started (.push n) n none s)) := by
  rw [← runRounds_started _ _ _ _ _ h]; rfl

theorem exec_pullo {n : Nat} (s : State) (h : n < 65536) :
    exec (.pullo n) s = .next (iterate pullOut n (started (.pullo n) n none s)) := by
  rw [← runRounds_started _ _ _ _ _ h]; rfl

theorem exec_pusho {n : Nat} (s : State) (h : n < 65536) :
    exec (.pusho n) s = .next (iterate pushOut n (started (.pusho n) n none s)) := by
  rw [← runRounds_started _ _ _ _ _ h]; rfl

theorem exec_pullx {n : Nat} (s : State) (h : n < 65536) :
    exec (.pullx n) s = .next (iterate pullMasked n (started (.pullx n) n none s)) := by
  rw [← runRounds_started _ _ _ _ _ h]; rfl

theorem exec_pushx {n : Nat} (s : State) (h : n < 65536) :
    exec (.pushx n) s = .next (iterate pushMasked n (started (.pushx n) n none s)) := by
  rw [← runRounds_started _ _ _ _ _ h]; rfl

theorem exec_hupdate {n : Nat} (s : State) (h : n < 65536) :
    exec (.hupdate n) s = .next (iterate pushOnly n (started (.hupdate n) n none s)) := by
  rw [← runRounds_started _ _ _ _ _ h]; rfl

theorem exec_ksgen {n : Nat} (s : State) (h : n < 65536) :
    exec (.ksgen n) s = .next (iterate pullOut n (started (.ksgen n) n (gateSample s) s)) := by
  rw [← runRounds_started _ _ _ _ _ h]; rfl

theorem exec_ksxor {n : Nat} (s : State) (h : n < 65536) :
    exec (.ksxor n) s = .next (iterate pullMasked n (started (.ksxor n) n (gateSample s) s)) := by
  rw [← runRounds_started _ _ _ _ _ h]; rfl

theorem exec_hfinal_refused {dsize : Nat} (len : Nat) (s : State) (h : dsizeLegal dsize = false) :
    exec (.hfinal dsize len) s = .next (errored s 2#3) := by
  simp [exec, execHfinal, h, raiseErr_eq, responseCode]

theorem exec_hfinal_waits {dsize : Nat} (len : Nat) (s : State) (h : dsizeLegal dsize = true) (hd : s.din = []) :
    exec (.hfinal dsize len) s = .next (started (.hfinal dsize len) 34 none s) := by
  simp [exec, execHfinal, h, hfinalBody, dinPop, hd, latch, started, fixedRounds]

theorem exec_hfinal_done {dsize : Nat} (len : Nat) (s : State) {f : Block} {rest : List Block}
    (h : dsizeLegal dsize = true) (hd : s.din = f :: rest) :
    exec (.hfinal dsize len) s = .next (completed s Engine.zero rest
      [⟨truncateBlock dsize (digest s.endian (padBlock len f) s.eng), BitVec.ofNat 6 dsize⟩]) := by
  simp [exec, execHfinal, h, hfinalBody, dinPop, hd, latch, finish_eq, zeroise, doutPush, completed]

theorem exec_setkey_waits (s : State) (hd : s.din = []) :
    exec (.setkey 32) s = .next (started (.setkey 32) 0 none s) := by
  simp [exec, execSetkey, klenLegal, setkeyBody, dinPop, hd, latch, started]

theorem exec_resync_waits (s : State) (h : s.kv = true) (hd : s.din = []) :
    exec (.resync true) s = .next (started (.resync true) 34 (gateSample s) s) := by
  simp [exec, execResync, h, resyncBody, dinPop, hd, latch, sampleGate, started, gateSample, fixedRounds]

theorem exec_resync_iv (s : State) {iv : Block} {rest : List Block} (h : s.kv = true) (hd : s.din = iv :: rest) :
    exec (.resync true) s = .next (completed s (resyncEngine s.endian s.k iv) rest []) := by
  simp [exec, execResync, h, resyncBody, dinPop, hd, latch, sampleGate, resyncWith, finish_eq, completed]

theorem exec_resync_no_iv (s : State) (h : s.kv = true) :
    exec (.resync false) s = .next (completed s (resyncEngine s.endian s.k zeroBlock) s.din []) := by
  simp [exec, execResync, h, resyncBody, latch, sampleGate, resyncWith, finish_eq, completed]

/-- The streams and the gate sample of a counted command with `n` rounds. -/
inductive Counted (s : State) : Instr → Streams → Nat → Option Bool → Prop
  | pull (n : Nat) : Counted s (.pull n) blankPull n none
  | push (n : Nat) : Counted s (.push n) pushOnly n none
  | pullo (n : Nat) : Counted s (.pullo n) pullOut n none
  | pusho (n : Nat) : Counted s (.pusho n) pushOut n none
  | pullx (n : Nat) : Counted s (.pullx n) pullMasked n none
  | pushx (n : Nat) : Counted s (.pushx n) pushMasked n none
  | hupdate (n : Nat) : Counted s (.hupdate n) pushOnly n none
  | ksgen (n : Nat) : Counted s (.ksgen n) pullOut n (gateSample s)
  | ksxor (n : Nat) : Counted s (.ksxor n) pullMasked n (gateSample s)

/-- All that command `i`, taken in state `s`, can lead to. -/
inductive ExecOutcome (s : State) : Instr → State → Prop
  | counted {i : Instr} {f : Streams} {n : Nat} {fs : Option Bool} (h : Counted s i f n fs) :
    ExecOutcome s i (iterate f (n % 65536) (started i n fs s))
  | clr : ExecOutcome s .clr (completed s Engine.zero s.din [])
  | badSize {dsize : Nat} (len : Nat) (h : dsizeLegal dsize = false) : ExecOutcome s (.hfinal dsize len) (errored s 2#3)
  | hfinalWaits {dsize : Nat} (len : Nat) (h : dsizeLegal dsize = true) (hd : s.din = []) :
    ExecOutcome s (.hfinal dsize len) (started (.hfinal dsize len) 34 none s)
  | hfinal {dsize : Nat} (len : Nat) (f : Block) (rest : List Block) (h : dsizeLegal dsize = true) (hd : s.din = f :: rest) :
    ExecOutcome s (.hfinal dsize len) (completed s Engine.zero rest
      [⟨truncateBlock dsize (digest s.endian (padBlock len f) s.eng), BitVec.ofNat 6 dsize⟩])
  | badLength {klen : Nat} (h : klenLegal klen = false) : ExecOutcome s (.setkey klen) (errored s 3#3)
  | setkeyWaits (hd : s.din = []) : ExecOutcome s (.setkey 32) (started (.setkey 32) 0 none s)
  | setkey (key : Block) (rest : List Block) (hd : s.din = key :: rest) :
    ExecOutcome s (.setkey 32) { completed s s.eng rest [] with k := key, kv := true }
  | noKey (ivp : Bool) (h : s.kv = false) : ExecOutcome s (.resync ivp) (errored s 4#3)
  | resyncWaits (h : s.kv = true) (hd : s.din = []) :
    ExecOutcome s (.resync true) (started (.resync true) 34 (gateSample s) s)
  | resync (iv : Block) (rest : List Block) (h : s.kv = true) (hd : s.din = iv :: rest) :
    ExecOutcome s (.resync true) (completed s (resyncEngine s.endian s.k iv) rest [])
  | resyncZero (h : s.kv = true) :
    ExecOutcome s (.resync false) (completed s (resyncEngine s.endian s.k zeroBlock) s.din [])

/-- A command's next state is one of its outcomes. -/
theorem exec_cases {i : Instr} {s t : State} (h : exec i s = .next t) : ExecOutcome s i t := by
  have run : ∀ {f : Streams} {n : Nat} {fs : Option Bool}, Counted s i f n fs →
      t = runRounds f (started i n fs s) → ExecOutcome s i t := by
    intro f n fs hc ht
    rw [ht, runRounds, show (started i n fs s).seq.rc.toNat = n % 65536 by simp [started]]
    exact .counted hc
  cases i with
  | clr =>
    have : t = completed s Engine.zero s.din [] := by
      simpa [exec, execClr, clrBody, finish_eq, completed, zeroise, latch, eq_comm] using h
    subst this; exact .clr
  | pull n => cases h; exact run (.pull n) rfl
  | push n => cases h; exact run (.push n) rfl
  | pullo n => cases h; exact run (.pullo n) rfl
  | pusho n => cases h; exact run (.pusho n) rfl
  | pullx n => cases h; exact run (.pullx n) rfl
  | pushx n => cases h; exact run (.pushx n) rfl
  | hupdate n => cases h; exact run (.hupdate n) rfl
  | ksgen n => cases h; exact run (.ksgen n) rfl
  | ksxor n => cases h; exact run (.ksxor n) rfl
  | hfinal dsize len =>
    cases hl : dsizeLegal dsize with
    | false => rw [exec_hfinal_refused len s hl] at h; cases h; exact .badSize len hl
    | true =>
      cases hd : s.din with
      | nil => rw [exec_hfinal_waits len s hl hd] at h; cases h; exact .hfinalWaits len hl hd
      | cons f rest => rw [exec_hfinal_done len s hl hd] at h; cases h; exact .hfinal len f rest hl hd
  | setkey klen =>
    cases hl : klenLegal klen with
    | false =>
      have : t = raiseErr .errKeylen s := by simpa [exec, execSetkey, hl, eq_comm] using h
      subst this; exact .badLength hl
    | true =>
      obtain rfl : klen = 32 := by simpa [klenLegal] using hl
      cases hd : s.din with
      | nil => rw [exec_setkey_waits s hd] at h; cases h; exact .setkeyWaits hd
      | cons key rest =>
        have : t = { completed s s.eng rest [] with k := key, kv := true } := by
          simpa [exec, execSetkey, hl, setkeyBody, dinPop, hd, latch, finish_eq, storeKey, completed, eq_comm] using h
        subst this; exact .setkey key rest hd
  | resync ivp =>
    cases hk : s.kv with
    | false => simp only [exec, execResync, hk] at h; cases h; exact .noKey ivp hk
    | true =>
      cases ivp with
      | false => rw [exec_resync_no_iv s hk] at h; cases h; exact .resyncZero hk
      | true =>
        cases hd : s.din with
        | nil => rw [exec_resync_waits s hk hd] at h; cases h; exact .resyncWaits hk hd
        | cons iv rest => rw [exec_resync_iv s hk hd] at h; cases h; exact .resync iv rest hk hd

/-- All that a step can do: reset, go on with the latched command, keep an idle block without a command, answer an illegal
word, or carry out the command at the head of `cmd`. -/
inductive StepOutcome (s : State) : State → Prop
  | reset (h : s.rst = true) : StepOutcome s (hardwareReset s)
  | resumed (i : Instr) (hr : s.rst = false) (hp : s.seq.phase = .busy i) : StepOutcome s (resume i s)
  | stutter (hr : s.rst = false) (hp : s.seq.phase = .idle) (hc : s.cmd = []) : StepOutcome s s
  | illegal (w : Word) (rest : List Word) (e : Illegal) (hr : s.rst = false) (hp : s.seq.phase = .idle)
    (hc : s.cmd = w :: rest) (hw : decode w = .error e) : StepOutcome s (errored { s with cmd := rest } 1#3)
  | command (w : Word) (rest : List Word) (i : Instr) (t : State) (hr : s.rst = false) (hp : s.seq.phase = .idle)
    (hc : s.cmd = w :: rest) (hw : decode w = .ok i) (ht : exec i { s with cmd := rest } = .next t) : StepOutcome s t

/-- A step's next state is one of its outcomes. -/
theorem step_cases {s t : State} (h : step s = .next t) : StepOutcome s t := by
  cases hr : s.rst with
  | true => simp only [step, hr, if_true] at h; cases h; exact .reset hr
  | false =>
    simp only [step, hr, Bool.false_eq_true, if_false] at h
    cases hp : s.seq.phase with
    | busy i => simp only [hp] at h; cases h; exact .resumed i hr hp
    | idle =>
      simp only [hp] at h
      cases hc : s.cmd with
      | nil => simp only [takeCommand, hc] at h; cases h; exact .stutter hr hp hc
      | cons w rest =>
        rw [takeCommand_of_cons hc] at h
        cases hw : decode w with
        | error e => simp only [hw] at h; cases h; exact .illegal w rest e hr hp hc hw
        | ok i => simp only [hw] at h; exact .command w rest i t hr hp hc hw h

end Sys2Proof.Machine
end

