-- ==== Sys2Proof/Laws/PerInstr.lean ====
section
/-! SUPPORT. Statements made of every command as syntax, one lemma per constructor. -/

namespace Sys2Proof.Laws.OpcodeNibble

/-- The value `OPC` selects the command by (30_encoding R55, R62). -/
def opcodeOf : Instr → Nat
  | .clr => 0x1
  | .pull _ => 0x2
  | .push _ => 0x2
  | .pullo _ => 0x2
  | .pusho _ => 0x2
  | .pullx _ => 0x2
  | .pushx _ => 0x2
  | .hfinal _ _ => 0x3
  | .setkey _ => 0x4
  | .resync _ => 0x5
  | .ksgen _ => 0x6
  | .ksxor _ => 0x6
  | .hupdate _ => 0x7

/-- The word of a well-formed command carries its opcode in bits 31 to 28, above every operand bit (30_encoding R55). -/
def Statement (i : Instr) : Prop := WellFormed i = true → field (encode i) 31 28 = opcodeOf i

theorem clr : Statement .clr := by
  intro _
  rfl

theorem pull (count : Nat) : Statement (.pull count) := by
  intro h
  simp only [WellFormed, decide_eq_true_eq] at h
  simp only [encode, formatI, opcodeOf]
  rw [field_ofNat _ _ _ (by omega)]
  omega

theorem push (count : Nat) : Statement (.push count) := by
  intro h
  simp only [WellFormed, decide_eq_true_eq] at h
  simp only [encode, formatI, opcodeOf]
  rw [field_ofNat _ _ _ (by omega)]
  omega

theorem pullo (count : Nat) : Statement (.pullo count) := by
  intro h
  simp only [WellFormed, decide_eq_true_eq] at h
  simp only [encode, formatI, opcodeOf]
  rw [field_ofNat _ _ _ (by omega)]
  omega

theorem pusho (count : Nat) : Statement (.pusho count) := by
  intro h
  simp only [WellFormed, decide_eq_true_eq] at h
  simp only [encode, formatI, opcodeOf]
  rw [field_ofNat _ _ _ (by omega)]
  omega

theorem pullx (count : Nat) : Statement (.pullx count) := by
  intro h
  simp only [WellFormed, decide_eq_true_eq] at h
  simp only [encode, formatI, opcodeOf]
  rw [field_ofNat _ _ _ (by omega)]
  omega

theorem pushx (count : Nat) : Statement (.pushx count) := by
  intro h
  simp only [WellFormed, decide_eq_true_eq] at h
  simp only [encode, formatI, opcodeOf]
  rw [field_ofNat _ _ _ (by omega)]
  omega

theorem hfinal (dsize len : Nat) : Statement (.hfinal dsize len) := by
  intro h
  simp only [WellFormed, Bool.and_eq_true, decide_eq_true_eq] at h
  simp only [encode, opcodeOf]
  rw [field_ofNat _ _ _ (by omega)]
  omega

theorem setkey (klen : Nat) : Statement (.setkey klen) := by
  intro h
  simp only [WellFormed, decide_eq_true_eq] at h
  simp only [encode, opcodeOf]
  rw [field_ofNat _ _ _ (by omega)]
  omega

theorem resync (ivp : Bool) : Statement (.resync ivp) := by
  intro _
  cases ivp <;> rfl

theorem ksgen (count : Nat) : Statement (.ksgen count) := by
  intro h
  simp only [WellFormed, decide_eq_true_eq] at h
  simp only [encode, formatI, opcodeOf]
  rw [field_ofNat _ _ _ (by omega)]
  omega

theorem ksxor (count : Nat) : Statement (.ksxor count) := by
  intro h
  simp only [WellFormed, decide_eq_true_eq] at h
  simp only [encode, formatI, opcodeOf]
  rw [field_ofNat _ _ _ (by omega)]
  omega

theorem hupdate (count : Nat) : Statement (.hupdate count) := by
  intro h
  simp only [WellFormed, decide_eq_true_eq] at h
  simp only [encode, formatI, opcodeOf]
  rw [field_ofNat _ _ _ (by omega)]
  omega

end Sys2Proof.Laws.OpcodeNibble
end

