-- ==== Sys2Proof/Tests/Slice0.lean ====
section
/-! SUPPORT. The model's own tests, with expected values from 95_test_vectors and the encodings of 30_encoding, and for every
statement with hypotheses a witness that meets them. -/

namespace Sys2Proof.Tests

open Sys2Proof.Machine

/-! Helpers: a small closed state, and blocks written as hex with byte 0 leftmost (30_encoding R70). -/

/-- The block whose bytes a 256-bit numeral shows from left to right. -/
def hexBlock (n : Nat) : Block := Vector.ofFn fun k => BitVec.ofNat 8 (n / 256 ^ (31 - k.val))

/-- The state after reset of a copy with byte order `e` and without the fast path, with blocks on `din`. -/
def base (e : Endian) (blks : List Block) : State :=
  { eng := Engine.zero, k := zeroBlock, kv := false, seq := Sequencer.idle, cmd := [], din := blks, dout := [], resp := [],
    rst := false, fastAvail := false, endian := e, hasFastpath := false }

/-- `base` with key `key`. -/
def keyed (e : Endian) (key : Block) (blks : List Block) : State := { base e blks with k := key, kv := true }

/-- The state a step or a command leads to; `d` where it stops. -/
def after (d : State) : Host.Outcome State Fault Refusal → State
  | .next t => t
  | _ => d

/-- The state after command `i` in `s`. -/
def ran (i : Instr) (s : State) : State := after s (exec i s)

/-- A base copy with the command words `ws` on `cmd`. -/
def queued (ws : List Word) (blks : List Block) : State := { base .le blks with cmd := ws }

/-- The block `00 01 .. 1f`. -/
def q : Block := hexBlock 0x000102030405060708090a0b0c0d0e0f101112131415161718191a1b1c1d1e1f

/-! Well-formedness: one ill-formed term for each check, and the largest value that passes. -/

theorem test_wf_pull_refuses : WellFormed (.pull 65536) = false := by decide
theorem test_wf_push_refuses : WellFormed (.push 65536) = false := by decide
theorem test_wf_pullo_refuses : WellFormed (.pullo 65536) = false := by decide
theorem test_wf_pusho_refuses : WellFormed (.pusho 65536) = false := by decide
theorem test_wf_pullx_refuses : WellFormed (.pullx 65536) = false := by decide
theorem test_wf_pushx_refuses : WellFormed (.pushx 65536) = false := by decide
theorem test_wf_hfinal_dsize_refuses : WellFormed (.hfinal 256 0) = false := by decide
theorem test_wf_hfinal_len_refuses : WellFormed (.hfinal 1 32) = false := by decide
theorem test_wf_setkey_refuses : WellFormed (.setkey 256) = false := by decide
theorem test_wf_ksgen_refuses : WellFormed (.ksgen 65536) = false := by decide
theorem test_wf_ksxor_refuses : WellFormed (.ksxor 65536) = false := by decide
theorem test_wf_hupdate_refuses : WellFormed (.hupdate 65536) = false := by decide
theorem test_wf_largest : WellFormed (.pull 65535) = true ∧ WellFormed (.hfinal 255 31) = true ∧
    WellFormed (.setkey 255) = true ∧ WellFormed (.hupdate 65535) = true := by decide

/-! Decoding: each constructor's word written out bit by bit, `OPC`, flags, operand (30_encoding R55 to R62). -/

theorem test_decode_clr : decode 0b0001_0000_00000000_00000000_00000000#32 = .ok .clr := by decide
theorem test_decode_pull : decode 0b0010_0000_00000000_10000000_00000011#32 = .ok (.pull 0x8003) := by decide
theorem test_decode_push : decode 0b0010_0001_00000000_00000000_00000001#32 = .ok (.push 1) := by decide
theorem test_decode_pullo : decode 0b0010_0010_00000000_00000001_00000000#32 = .ok (.pullo 256) := by decide
theorem test_decode_pusho : decode 0b0010_0011_00000000_00000000_00000010#32 = .ok (.pusho 2) := by decide
theorem test_decode_pullx : decode 0b0010_0110_00000000_00000000_00000101#32 = .ok (.pullx 5) := by decide
theorem test_decode_pushx : decode 0b0010_0111_00000000_11111111_11111111#32 = .ok (.pushx 65535) := by decide
theorem test_decode_hfinal : decode 0b0011_0000_00000000_00010100_000_00011#32 = .ok (.hfinal 20 3) := by decide
theorem test_decode_setkey : decode 0b0100_0000_00000000_00000000_00100000#32 = .ok (.setkey 32) := by decide
theorem test_decode_resync : decode 0b0101_0000_00000000_00000000_00000001#32 = .ok (.resync true) ∧
    decode 0b0101_0000_00000000_00000000_00000000#32 = .ok (.resync false) := by decide
theorem test_decode_ksgen : decode 0b0110_0000_00000000_00000000_00000011#32 = .ok (.ksgen 3) := by decide
theorem test_decode_ksxor : decode 0b0110_0100_00000000_00000000_00000010#32 = .ok (.ksxor 2) := by decide
theorem test_decode_hupdate : decode 0b0111_0000_00000000_00000000_00000001#32 = .ok (.hupdate 1) := by decide

/-- The words of 95_test_vectors 2.7 that no command has. -/
theorem test_decode_refuses :
    [0x00000000#32, 0x10000001#32, 0x20010000#32, 0x24000001#32, 0x61000001#32, 0x62000001#32, 0x38002100#32,
      0x80000000#32, 0xFFFFFFFF#32].all (fun w => (decode w).toOption.isNone) = true := by decide

theorem test_encode_words :
    [encode (.hfinal 20 3), encode (.pushx 65535), encode (.ksxor 2), encode (.resync true), encode (.setkey 32)] =
      [0x30001403#32, 0x2700FFFF#32, 0x64000002#32, 0x50000001#32, 0x40000020#32] := by decide

theorem test_table_word_first_step :
    decodeTableWord 32 0x21000001 = some (.push 1) ∧
    (State.reset.withFetchWord 32 0x21000001).cmd = [0x21000001#32] := by decide

/-! The round on the vectors of 95_test_vectors 2.1 to 2.3. -/

/-- Section 2.1, two pull rounds. -/
theorem test_pull_two : (ran (.pull 2) (base .le [])).eng.a.toList =
    [0, 0, 0, 0, 0, 0, 0, 0, 0x4000, 0, 0, 0x4000, 0x4000, 1, 0, 0, 1] := by decide

/-- Section 2.1, the third round. -/
theorem test_pull_three : (ran (.pull 3) (base .be [])).eng.a.toList =
    [0xFEFFFBFE, 0xFFFFFFF7, 0xFFFFFFFF, 0xFEFFFBFF, 0xFEFFFBFF, 0xF7FFFFF7, 0xFFFFFFF7, 0xFFFEFFFF, 0xF7FFBFFF,
      0xF7FFFDFF, 0xFFFEFDFF, 0xFFFEBFFF, 0xFFFFBDFF, 0xFFFFFFFF, 0xFFFFFDFF, 0xFFFFFFF7, 0xFFFFFFFF] := by decide

/-- Section 2.2, V2.2a: the injection into stage `P' - 25`. -/
theorem test_round_injects_into_b25 :
    let b1 : Stage := #v[0x11111111, 0x22222222, 0x33333333, 0x44444444, 0x55555555, 0x66666666, 0x77777777, 0x88888888]
    let g := { Engine.zero with b := Engine.zero.b.set 1 b1 }
    ((round .le none false none g).1.b.get 8).toList =
      [0x33333333, 0x44444444, 0x55555555, 0x66666666, 0x77777777, 0x88888888, 0x11111111, 0x22222222] := by decide

/-- Section 2.2, V2.2b: the stages `P - 4` and `P + 16` feed A. -/
theorem test_round_feeds_a :
    let b16 : Stage := #v[0x100, 0x200, 0x300, 0x400, 0x500, 0x600, 0x700, 0x800]
    let b28 : Stage := #v[0x01000000, 0x02000000, 0x03000000, 0x04000000, 0x05000000, 0x06000000, 0x07000000, 0x08000000]
    let g := { Engine.zero with b := (Engine.zero.b.set 16 b16).set 28 b28 }
    (round .be none false none g).1.a.toList =
      [0xFFFFFFFE, 0xFEFFFFFF, 0xFDFFFFFF, 0xFCFFFFFF, 0xFBFFFFFF, 0xFAFFFFFF, 0xF9FFFFFF, 0xF8FFFFFF, 0xF7FFFFFF,
        0xFFFFFEFF, 0xFFFFFDFF, 0xFFFFFCFF, 0xFFFFFBFF, 0xFFFFFAFF, 0xFFFFF9FF, 0xFFFFF8FF, 0xFFFFF7FF] := by decide

/-- Section 2.3: gamma, pi, theta and sigma on a state with different words. -/
theorem test_round_nontrivial :
    let g := { Engine.zero with a := Vector.ofFn fun i => BitVec.ofNat 32 (0x01010101 * (i.val + 1)) }
    (round .le none false none g).1.a.toList =
      [0xD3D3D3D2, 0x98989898, 0x8F8F8F8F, 0xC7C7C7C7, 0x24242424, 0x7C7C7C7C, 0xFEFEFEFE, 0x26262626, 0x5A5A5A5A,
        0x4F4F4F4F, 0xFAFAFAFA, 0x05050505, 0x01010101, 0xF3F3F3F3, 0xD1D1D1D1, 0x83838383, 0xF4F4F4F4] := by decide

/-! One test or two per command. -/

theorem test_clr : (ran .clr (ran (.pull 2) (base .le []))).eng = Engine.zero := by decide

/-- Section 2.2, V2.2c, two push rounds under `LE`. -/
theorem test_push_le : (ran (.push 2) (base .le [q, q])).eng.a.toList =
    [0x08080808, 0x09880A8B, 0x6706A5C4, 0xC8894A0B, 0x7CED5FCE, 0xB213F150, 0x369675D5, 0x6A7B4859, 0x6E7F0C5D,
      0x22BB33AA, 0x82038302, 0x04074605, 0xA0B8F0A8, 0xA0B8B0A9, 0x0C0F0E0D, 0x04070605, 0xC3834302] := by decide

/-- Section 2.2, V2.2c, two push rounds under `BE`. -/
theorem test_push_be : (ran (.push 2) (base .be [q, q])).eng.a.toList =
    [0x08080808, 0x8B0A8809, 0xC4A50667, 0x0B4A89C8, 0xCE5FED7C, 0x50F113B2, 0xD4749737, 0x59487B6A, 0x5D4C7F6E,
      0xBB22AA33, 0x03820283, 0x07040506, 0xB8A0A8B0, 0xB8A0A8B1, 0x0F0C0D0E, 0x07040506, 0x034383C2] := by decide

/-- Section 2.1, the output of the third round under both policies. -/
theorem test_pullo :
    (ran (.pullo 1) (ran (.pull 2) (base .le []))).dout =
      [⟨hexBlock 0x0000000000000000004000000040000001000000000000000000000001000000, 32⟩] ∧
    (ran (.pullo 1) (ran (.pull 2) (base .be []))).dout =
      [⟨hexBlock 0x0000000000000000000040000000400000000001000000000000000000000001, 32⟩] := by decide

/-- The mask lands on the output bytes: the third round of section 2.1 with a mask of `0xFF` bytes. -/
theorem test_pullx :
    (ran (.pullx 1) (ran (.pull 2) (base .le [Vector.replicate 32 0xFF#8]))).dout =
      [⟨hexBlock 0xffffffffffffffffffbfffffffbffffffefffffffffffffffffffffffeffffff, 32⟩] := by decide

/-- The output of a push round shows the state before it (40_round_engine R75). -/
theorem test_pusho : (ran (.pusho 1) (ran (.pull 2) (base .le [q]))).dout =
    [⟨hexBlock 0x0000000000000000004000000040000001000000000000000000000001000000, 32⟩] := by decide

/-- Absorb block first, then mask block (20_memory R49): from the zero state the output is the mask, the state that of
`PUSH 1`. -/
theorem test_pushx :
    (ran (.pushx 1) (base .le [zeroBlock, q])).dout = [⟨q, 32⟩] ∧
    (ran (.pushx 1) (base .le [q, zeroBlock])).eng = (ran (.push 1) (base .le [q])).eng := by decide

/-- `PUSHX` with its absorb block only waits with the block held. -/
theorem test_pushx_holds :
    (ran (.pushx 1) (base .le [q])).seq = ⟨.busy (.pushx 1), 1#16, some q, none⟩ := by decide

theorem test_hupdate : (ran (.hupdate 1) (base .le [q])).eng.a.toList.take 3 = [0xFFFFFFFE, 0xFCFDFEFF, 0xF8F9FAFB] := by
  decide

theorem test_setkey_short_key_refused : (ran (.setkey 16) (base .le [q])).resp = [3#3] ∧
    (ran (.setkey 16) (base .le [q])).din = [q] := by decide

theorem test_setkey : (ran (.setkey 32) (base .le [q])).k = q ∧ (ran (.setkey 32) (base .le [q])).kv = true := by decide

theorem test_resync_without_key : (ran (.resync true) (base .le [q])).resp = [4#3] := by decide

theorem test_hfinal_bad_size : (ran (.hfinal 33 0) (base .le [q])).resp = [2#3] ∧
    (ran (.hfinal 0 0) (base .le [q])).resp = [2#3] := by decide

/-- Section 2.4: the digest of "abc". -/
theorem test_hfinal_abc :
    (ran (.hfinal 32 3) (base .le [hexBlock (0x616263 * 256 ^ 29)])).dout =
      [⟨hexBlock 0xa2a70386b81fb918be17f00ff3e3b376a0462c4dc2eec7f2c63202c8874c037d, 32⟩] := by decide +kernel

/-- Section 2.6, V2.6b: the first keystream block under key `00..1f` and IV `20..3f`, `ENDIAN = LE`. -/
theorem test_ksgen_after_resync :
    (ran (.ksgen 1) (ran (.resync true) (keyed .le q
      [hexBlock 0x202122232425262728292a2b2c2d2e2f303132333435363738393a3b3c3d3e3f]))).dout =
      [⟨hexBlock 0xcc57c76fc5e78b729e14b788fabde62ce7dd9efd32ad29b64af181d4574d170c, 32⟩] := by decide +kernel

/-- `KSXOR` is the masked output of pull rounds (43_cipher_adapter R123): the third round of section 2.1 with a mask of
`0xFF` bytes. -/
theorem test_ksxor :
    (ran (.ksxor 1) (ran (.pull 2) (base .le [Vector.replicate 32 0xFF#8]))).dout =
      [⟨hexBlock 0xffffffffffffffffffbfffffffbffffffefffffffffffffffffffffffeffffff, 32⟩] := by decide

/-- Section 2.4: padded blocks, and the truncation of the digest of "abc" to 20 bytes. -/
theorem test_pad_and_truncate :
    padBlock 3 (hexBlock (0x616263EEEE * 256 ^ 27)) = hexBlock (0x61626301 * 256 ^ 28) ∧
    padBlock 31 q = hexBlock 0x000102030405060708090a0b0c0d0e0f101112131415161718191a1b1c1d1e01 ∧
    word .le (padBlock 0 q) 0 = 0x00000001#32 ∧ word .be (padBlock 0 q) 0 = 0x01000000#32 ∧
    truncateBlock 20 (hexBlock 0xa2a70386b81fb918be17f00ff3e3b376a0462c4dc2eec7f2c63202c8874c037d) =
      hexBlock (0xa2a70386b81fb918be17f00ff3e3b376a0462c4d * 256 ^ 12) := by decide

/-! Witnesses: for each statement with hypotheses a concrete input that meets all of them, at a boundary of each clause. -/

theorem witness_decodeOfEncode : WellFormed (.hfinal 255 31) = true ∧ WellFormed (.pullx 65535) = true := by decide

theorem witness_encodeOfDecode : decode 0x2000FFFF#32 = .ok (.pull 65535) ∧ decode 0x3000FF1F#32 = .ok (.hfinal 255 31) := by
  decide

theorem witness_matchMaskSelectsCommand :
    0x2700FFFF#32 &&& maskWord .pushx = matchWord .pushx ∧ 0x50000001#32 &&& maskWord .resync = matchWord .resync ∧
    ∃ i, decode 0x2700FFFF#32 = .ok i ∧ mnemonicOf i = .pushx := ⟨by decide, by decide, .pushx 65535, by decide, by decide⟩

theorem witness_reservedOpcodeIsIllegal :
    (0x0FFFFFFF#32).toNat / 2 ^ 28 = 0 ∧ 8 ≤ (0x80000000#32).toNat / 2 ^ 28 ∧ 8 ≤ (0xFFFFFFFF#32).toNat / 2 ^ 28 := by decide

/-- The hypotheses inside `AnswersIllegal`. -/
theorem witness_answersIllegal : (queued [0x80000000#32] []).rst = false ∧
    (queued [0x80000000#32] []).seq = Sequencer.idle ∧ (queued [0x80000000#32] []).cmd = 0x80000000#32 :: [] := by decide

/-- One set reserved bit for each format, at the ends of its reserved ranges. -/
theorem witness_reservedBitIsIllegal :
    [(0x10000001#32, 0), (0x18000000#32, 27), (0x20010000#32, 16), (0x20800000#32, 23), (0x28000000#32, 27),
      (0x60800000#32, 23), (0x78000000#32, 27), (0x30000120#32, 5), (0x30000180#32, 7), (0x30010100#32, 16),
      (0x38000100#32, 27), (0x40000120#32, 8), (0x48000020#32, 27), (0x50000002#32, 1), (0x58000000#32, 27)].all
      (fun x : Word × Nat => reservedBit (x.1.toNat / 2 ^ 28) x.2 && x.1.getLsbD x.2) = true := by decide

theorem witness_reservedFlagsAreIllegal :
    [0x24000001#32, 0x25000001#32, 0x61000001#32, 0x63000001#32, 0x67000001#32, 0x71000001#32, 0x77000001#32].all
      (fun w : Word => [0x24, 0x25, 0x61, 0x62, 0x63, 0x65, 0x66, 0x67, 0x71, 0x72, 0x73, 0x74, 0x75, 0x76, 0x77].contains
        (w.toNat / 2 ^ 24)) = true := by decide

/-- The three clauses: a command word, a latched command, nothing to do. -/
theorem witness_stepRunsDecodedCommand :
    ((queued [0x21000001#32] [q]).rst = false ∧ (queued [0x21000001#32] [q]).seq.phase = .idle ∧
      (queued [0x21000001#32] [q]).cmd = 0x21000001#32 :: [] ∧ decode 0x21000001#32 = .ok (.push 1)) ∧
    ((ran (.push 1) (base .le [])).rst = false ∧ (ran (.push 1) (base .le [])).seq.phase = .busy (.push 1)) ∧
    ((base .le []).rst = false ∧ (base .le []).seq.phase = .idle ∧ (base .le []).cmd = []) := by decide

theorem witness_placedCommandRunsNext : decodeTableWord 32 0x21000001 = some (.push 1) := by decide

theorem witness_assertedReset : (hostAssertRst (ran (.push 1) (base .le []))).rst = true := by decide

theorem witness_roundLeavesOtherStages : (0 : Fin 32) ≠ stage0 Engine.zero.p ∧ (0 : Fin 32) ≠ stage25 Engine.zero.p := by decide

/-- The ends of `r` in the rotation formula. -/
theorem witness_rotateLeftFormula : 0 < 1 ∧ 31 ≤ 31 := by decide

/-- The largest `COUNT`, for the commands that pop nothing. -/
theorem witness_count : 65535 < 65536 := by decide

/-- The blocks of the streaming commands: none, and as many as `COUNT` can ask for. -/
theorem witness_streamedBlocks (s : State) :
    (∃ qs rest : List Block, qs.length < 65536 ∧ { s with din := [q] }.din = qs ++ rest) ∧
    (∃ qs rest : List Block, qs.length = 65535 ∧ qs.length < 65536 ∧
      { s with din := List.replicate 65535 q ++ [q] }.din = qs ++ rest) :=
  ⟨⟨[], [q], by decide, rfl⟩, List.replicate 65535 q, [q], List.length_replicate, by rw [List.length_replicate]; decide, rfl⟩

theorem witness_interleavedBlocks : ∃ (qms : List (Block × Block)) (rest : List Block),
    qms.length < 65536 ∧ (base .le [q, zeroBlock, q]).din = interleave qms ++ rest :=
  ⟨[(q, zeroBlock)], [q], by decide, rfl⟩

theorem witness_countedCommandsSplit : ∃ s t u v : State, 1 + 1 ≤ 65535 ∧ exec (.push (1 + 1)) s = .next t ∧
    exec (.push 1) s = .next u ∧ u.seq.phase = .idle ∧ exec (.push 1) u = .next v :=
  ⟨base .le [q, q], _, ran (.push 1) (base .le [q, q]), _, by decide, rfl, rfl, by decide, rfl⟩

theorem witness_adapterCommandsEqualCoreCommands : ∃ s t u : State, 1 < 65536 ∧ exec (.ksxor 1) s = .next t ∧
    exec (.pullx 1) s = .next u := ⟨base .le [q], _, _, by decide, rfl, rfl⟩

/-- The three clauses of the padded block, at both ends of `LEN`. -/
theorem witness_paddingOfFinalBlock : 31 ≤ 31 ∧ 0 ≤ 31 ∧ (30 : Fin 32).val < 31 ∧ (31 : Fin 32).val = 31 ∧
    (0 : Fin 32).val = 0 ∧ 0 < (1 : Fin 32).val := by decide

/-- Both ends of the digest size and of `LEN`. -/
theorem witness_hfinalProducesDigest : 1 ≤ 1 ∧ 1 ≤ 32 ∧ 32 ≤ 32 ∧ 0 ≤ 31 ∧ 31 ≤ 31 ∧ (base .le [q]).din = q :: [] := by decide

theorem witness_hfinalLeavesZeroState : ∃ t, exec (.hfinal 32 0) (base .le [q]) = .next t ∧
    t.resp = (base .le [q]).resp ++ [0#3] := ⟨ran (.hfinal 32 0) (base .le [q]), rfl, rfl⟩

theorem witness_setkeyStoresKey : (base .le [q]).din = q :: [] := rfl

/-- Sizes on either side of 1 to 32, lengths on either side of 32, and no key. -/
theorem witness_preconditionsRefuse : (0 = 0 ∨ 32 < 0) ∧ (33 = 0 ∨ 32 < 33) ∧ 31 ≠ 32 ∧ 33 ≠ 32 ∧ (base .le []).kv = false := by
  decide

theorem witness_resyncLoadsKeyAndIv : ((keyed .le q [q]).kv = true ∧ (keyed .le q [q]).din = q :: []) ∧
    (keyed .le q []).kv = true ∧ ∃ t, exec (.resync true) (keyed .le q [q]) = .next t ∧
      t.resp = (keyed .le q [q]).resp ++ [0#3] :=
  ⟨⟨rfl, rfl⟩, rfl, ran (.resync true) (keyed .le q [q]), rfl, rfl⟩

theorem witness_cipherRoundTrip : ∃ (s u : State) (ms cs rest rest' : List Block), ms.length < 65536 ∧ s.kv = true ∧
    s.din = q :: (ms ++ rest) ∧ cs.length = ms.length ∧ u.kv = true ∧ u.k = s.k ∧ u.endian = s.endian ∧
    u.din = q :: (cs ++ rest') :=
  ⟨keyed .be q [q, zeroBlock], keyed .be q [q, q], [zeroBlock], [q], [], [], by decide, rfl, rfl, rfl, rfl, rfl, rfl, rfl⟩

/-- Both clauses, with no block of many and all but one: for `PUSHX` an even number with nothing held, and the odd number
that leaves only the last mask block missing. -/
theorem witness_streamingCommandsWait :
    (65535 < 65536 ∧ ([] : List Block).length < 65535 ∧ (base .le []).din = []) ∧
    (2 < 65536 ∧ [q].length < 2 ∧ (base .le [q]).din = [q]) ∧
    (([] : List (Block × Block)).length < 65535 ∧ (base .le []).din = interleave [] ++ (none : Option Block).toList) ∧
    ([(q, zeroBlock)].length < 2 ∧ (base .le [q, zeroBlock]).din = interleave [(q, zeroBlock)] ++ (none : Option Block).toList) ∧
    ([(q, zeroBlock)].length < 2 ∧ (base .le [q, zeroBlock, q]).din = interleave [(q, zeroBlock)] ++ (some q).toList) := by
  decide

theorem witness_singleBlockCommandsWait : (keyed .le q []).din = [] ∧ 1 ≤ 1 ∧ 32 ≤ 32 ∧ (keyed .le q []).kv = true := by decide

/-- Both clauses: a command that waits, and one that ends. -/
theorem witness_lateBlocksAreEquivalent :
    (WellFormed (.push 1) = true ∧ (base .le []).rst = false ∧ ∃ t, exec (.push 1) (base .le []) = .next t ∧
      t.seq.phase = .busy (.push 1)) ∧
    (WellFormed (.push 1) = true ∧ (base .le [q]).rst = false ∧ ∃ t, exec (.push 1) (base .le [q]) = .next t ∧
      t.seq.phase = .idle) :=
  ⟨⟨rfl, rfl, ran (.push 1) (base .le []), rfl, by decide⟩, rfl, rfl, ran (.push 1) (base .le [q]), rfl, by decide⟩

/-- A waiting state that meets the invariant, and finds no block. -/
theorem witness_waitingStepChangesNothing : BlockInv (ran (.pushx 1) (base .le [q])) ∧
    (ran (.pushx 1) (base .le [q])).rst = false ∧ (ran (.pushx 1) (base .le [q])).seq.phase = .busy (.pushx 1) ∧
    (ran (.pushx 1) (base .le [q])).din = [] := by
  refine ⟨⟨fun _ => rfl, ⟨rfl, ?_, rfl⟩, ?_, ?_⟩, rfl, rfl, rfl⟩
  · exact ⟨by decide, by decide⟩
  · exact fun x h => absurd h List.not_mem_nil
  · exact fun x h => absurd h List.not_mem_nil

/-- Both clauses: a command that is not `SETKEY`, and `SETKEY`. -/
theorem witness_commandFrame : (∃ t, exec (.pullo 1) (base .le []) = .next t) ∧
    (∀ klen, Instr.pullo 1 ≠ .setkey klen) ∧ ∃ t, exec (.setkey 32) (base .le [q]) = .next t :=
  ⟨⟨_, rfl⟩, fun _ h => (by cases h), _, rfl⟩

theorem witness_keyIsReadOnlyByResync : (∀ ivp, Instr.setkey 32 ≠ .resync ivp) ∧
    (∃ t, exec (.setkey 32) (base .le []) = .next t) ∧ ∃ t', exec (.setkey 32) { base .le [] with k := q } = .next t' :=
  ⟨fun _ h => (by cases h), ⟨_, rfl⟩, _, rfl⟩

theorem witness_errorsLeaveNoTrace : ∃ t, exec (.hfinal 33 0) (base .le [q]) = .next t ∧
    t.resp = (base .le [q]).resp ++ [2#3] ∧ 2#3 ≠ 0#3 := ⟨_, rfl, rfl, by decide⟩

theorem witness_oneResponsePerCommand : WellFormed (.setkey 32) = true ∧ ∃ t, exec (.setkey 32) (base .le []) = .next t :=
  ⟨rfl, _, rfl⟩

theorem witness_blocksMovedPerCommand : WellFormed (.pushx 1) = true ∧ ∃ t, exec (.pushx 1) (base .le [q, q]) = .next t ∧
    t.resp = (base .le [q, q]).resp ++ [0#3] := ⟨rfl, ran (.pushx 1) (base .le [q, q]), rfl, by decide⟩

/-- A step that changes the key: by reset, by a waiting `SETKEY`, by the word of `SETKEY 32`. -/
theorem witness_onlySetkeyAndResetChangeKey :
    (∃ t, step (hostAssertRst (keyed .le q [])) = .next t ∧ t.kv ≠ (keyed .le q []).kv) ∧
    (∃ t, step (hostPushDin [q] (ran (.setkey 32) (base .le []))) = .next t ∧
      t.k ≠ (hostPushDin [q] (ran (.setkey 32) (base .le []))).k) ∧
    (∃ t, step (queued [0x40000020#32] [q]) = .next t ∧ t.k ≠ (queued [0x40000020#32] [q]).k) :=
  ⟨⟨hardwareReset (hostAssertRst (keyed .le q [])), rfl, by decide⟩,
    ⟨resume (.setkey 32) (hostPushDin [q] (ran (.setkey 32) (base .le []))), rfl, by decide⟩,
    ran (.setkey 32) (base .le [q]), rfl, by decide⟩

theorem witness_buildParametersNeverChange : ∃ t, step (base .be []) = .next t := ⟨_, rfl⟩

/-- Two states that differ in the fast path and its gate. -/
theorem witness_fastPathIsUnobservable :
    let s := queued [0x60000001#32] []
    let u := { s with hasFastpath := true, fastAvail := true }
    s ≠ u ∧ blankGate s = blankGate u ∧ (∃ t, step s = .next t) ∧ ∃ v, step u = .next v :=
  ⟨by decide, by decide, ⟨_, rfl⟩, _, rfl⟩

theorem witness_everyStepKeepsInvariant : BlockInv (queued [0x21000001#32] [q]) ∧
    ∃ t, step (queued [0x21000001#32] [q]) = .next t := by
  refine ⟨⟨fun _ => rfl, rfl, ?_, ?_⟩, _, rfl⟩
  · exact fun x h => absurd h List.not_mem_nil
  · exact fun x h => absurd h List.not_mem_nil

end Sys2Proof.Tests
end

section
/-! The rotation of 00_scope R10 in numbers. -/

namespace Sys2Proof.Machine

@[simp] theorem rotl_zero (x : Word) : rotl x 0 = x := by
  simp [rotl, BitVec.rotateLeft_def, BitVec.ushiftRight_eq_zero]

/-- The two parts a rotation is made of have no bit in common: the one ends where the other begins. -/
theorem shiftLeft_and_ushiftRight_complement (x : Word) {r : Nat} (hr : r ≤ 31) : x <<< r &&& x >>> (32 - r) = 0#32 := by
  ext i hi
  by_cases hlow : i < r
  · simp [hlow]
  · have hout : 32 ≤ 32 - r + i := by omega
    simp [BitVec.getLsbD_of_ge x _ hout]

/-- Parts without a common bit are joined by addition as well as by OR. -/
theorem rotl_eq_add (x : Word) {r : Nat} (hr : r ≤ 31) : rotl x r = x <<< r + x >>> (32 - r) := by
  rw [BitVec.add_eq_or_of_and_eq_zero _ _ (shiftLeft_and_ushiftRight_complement x hr), rotl, BitVec.rotateLeft_def,
    Nat.mod_eq_of_lt (by omega : r < 32)]

theorem rotl_toNat (x : Word) {r : Nat} (hr : r ≤ 31) :
    (rotl x r).toNat = (x.toNat * 2 ^ r + x.toNat / 2 ^ (32 - r)) % 2 ^ 32 := by
  rw [rotl_eq_add x hr, BitVec.toNat_add, BitVec.toNat_shiftLeft, BitVec.toNat_ushiftRight, Nat.shiftLeft_eq,
    Nat.shiftRight_eq_div_pow, Nat.mod_add_mod]

/-- Settles O19: the two shifted parts do not overlap, so their OR is their sum. -/
theorem rotateLeftFormula : Obligations.RotateLeftFormula :=
  fun x => ⟨rotl_zero x, fun _ _ hr => rotl_toNat x hr⟩

end Sys2Proof.Machine
end

section
/-! What no command writes: the host's and the environment's inputs and the build parameters (10_state R26, R27, 00_scope
R7). `iterate_spec` says it of rounds whose sequencer holds what a run can leave there; a step starts from any state, so the
frame is proved here without that condition. -/

namespace Sys2Proof.Machine

/-- `t` has the inputs `cmd`, `rst`, `fast_avail` and the build parameters of `s`. -/
structure KeepsInputs (s t : State) : Prop where
  cmd : t.cmd = s.cmd
  rst : t.rst = s.rst
  fastAvail : t.fastAvail = s.fastAvail
  endian : t.endian = s.endian
  hasFastpath : t.hasFastpath = s.hasFastpath

/-- `t` has the key register and its flag as well: rounds do not write them (10_state R20, R21). -/
structure KeepsInputsAndKey (s t : State) : Prop extends KeepsInputs s t where
  k : t.k = s.k
  kv : t.kv = s.kv

theorem KeepsInputs.refl (s : State) : KeepsInputs s s := ⟨rfl, rfl, rfl, rfl, rfl⟩

theorem KeepsInputs.trans {s t u : State} (h : KeepsInputs s t) (g : KeepsInputs t u) : KeepsInputs s u :=
  ⟨g.cmd.trans h.cmd, g.rst.trans h.rst, g.fastAvail.trans h.fastAvail, g.endian.trans h.endian,
    g.hasFastpath.trans h.hasFastpath⟩

theorem KeepsInputsAndKey.trans {s t u : State} (h : KeepsInputsAndKey s t) (g : KeepsInputsAndKey t u) :
    KeepsInputsAndKey s u :=
  ⟨h.toKeepsInputs.trans g.toKeepsInputs, g.k.trans h.k, g.kv.trans h.kv⟩

/-! The shared operations. -/

theorem setEngine_keeps (s : State) (g : Engine) : KeepsInputsAndKey s { s with eng := g } :=
  ⟨⟨rfl, rfl, rfl, rfl, rfl⟩, rfl, rfl⟩

theorem finish_keeps (s : State) : KeepsInputsAndKey s (finish s) := ⟨⟨rfl, rfl, rfl, rfl, rfl⟩, rfl, rfl⟩

theorem waitBlock_keeps (n : Nat) (held : Option Block) (s : State) : KeepsInputsAndKey s (waitBlock n held s) :=
  ⟨⟨rfl, rfl, rfl, rfl, rfl⟩, rfl, rfl⟩

theorem started_keeps (i : Instr) (n : Nat) (fs : Option Bool) (s : State) : KeepsInputsAndKey s (started i n fs s) :=
  ⟨⟨rfl, rfl, rfl, rfl, rfl⟩, rfl, rfl⟩

theorem completed_keeps (s : State) (g : Engine) (rest : List Block) (outs : List OutEntry) :
    KeepsInputsAndKey s (completed s g rest outs) := ⟨⟨rfl, rfl, rfl, rfl, rfl⟩, rfl, rfl⟩

theorem errored_keeps (s : State) (c : BitVec 3) : KeepsInputsAndKey s (errored s c) :=
  ⟨⟨rfl, rfl, rfl, rfl, rfl⟩, rfl, rfl⟩

theorem dinPop_keeps {s t : State} {q : Block} (h : dinPop s = some (q, t)) : KeepsInputsAndKey s t := by
  rw [(dinPop_some h).2]
  exact ⟨⟨rfl, rfl, rfl, rfl, rfl⟩, rfl, rfl⟩

theorem takeAbsorb_keeps {s t : State} {q : Block} (h : takeAbsorb s = some (q, t)) : KeepsInputsAndKey s t := by
  rw [(takeAbsorb_some h).1]
  exact ⟨⟨rfl, rfl, rfl, rfl, rfl⟩, rfl, rfl⟩

theorem roundStep_keeps (f : Streams) (abs msk : Option Block) (s : State) :
    KeepsInputsAndKey s (roundStep f abs msk s) := by
  rw [roundStep_eq]
  exact ⟨⟨rfl, rfl, rfl, rfl, rfl⟩, rfl, rfl⟩

/-! Rounds, commands and steps. -/

theorem iterate_keeps (f : Streams) (n : Nat) (s : State) : KeepsInputsAndKey s (iterate f n s) := by
  induction n generalizing s with
  | zero => exact finish_keeps s
  | succ n ih =>
    have goOn (abs msk : Option Block) (s1 : State) : KeepsInputsAndKey s1 (iterate f n (roundStep f abs msk s1)) :=
      (roundStep_keeps f abs msk s1).trans (ih _)
    rw [iterate_succ]
    split
    · split
      · exact waitBlock_keeps _ _ s
      · next q s1 habs =>
        refine (takeAbsorb_keeps habs).trans ?_
        split
        · split
          · exact waitBlock_keeps _ _ s1
          · next m s2 hmsk => exact (dinPop_keeps hmsk).trans (goOn _ _ s2)
        · exact goOn _ _ s1
    · split
      · split
        · exact waitBlock_keeps _ _ s
        · next m s1 hmsk => exact (dinPop_keeps hmsk).trans (goOn _ _ s1)
      · exact goOn _ _ s

theorem hfinalBody_keeps (dsize len : Nat) (s : State) : KeepsInputsAndKey s (hfinalBody dsize len s) := by
  unfold hfinalBody
  split
  · exact ⟨.refl s, rfl, rfl⟩
  · next f s1 hpop => exact (dinPop_keeps hpop).trans ⟨⟨rfl, rfl, rfl, rfl, rfl⟩, rfl, rfl⟩

theorem setkeyBody_keeps (s : State) : KeepsInputs s (setkeyBody s) := by
  unfold setkeyBody
  split
  · exact .refl s
  · next key s1 hpop => exact (dinPop_keeps hpop).toKeepsInputs.trans ⟨rfl, rfl, rfl, rfl, rfl⟩

theorem resyncWith_keeps (iv : Block) (s : State) : KeepsInputsAndKey s (resyncWith iv s) :=
  (setEngine_keeps s (resyncEngine s.endian s.k iv)).trans (finish_keeps _)

theorem resyncBody_keeps (ivp : Bool) (s : State) : KeepsInputsAndKey s (resyncBody ivp s) := by
  unfold resyncBody
  split
  · split
    · exact ⟨.refl s, rfl, rfl⟩
    · next iv s1 hpop => exact (dinPop_keeps hpop).trans (resyncWith_keeps iv s1)
  · exact resyncWith_keeps zeroBlock s

theorem resume_keeps (i : Instr) (s : State) : KeepsInputs s (resume i s) := by
  cases i with
  | clr => exact ⟨rfl, rfl, rfl, rfl, rfl⟩
  | hfinal dsize len => exact (hfinalBody_keeps dsize len s).toKeepsInputs
  | setkey klen => exact setkeyBody_keeps s
  | resync ivp => exact (resyncBody_keeps ivp s).toKeepsInputs
  | pull | push | pullo | pusho | pullx | pushx | ksgen | ksxor | hupdate =>
    exact (iterate_keeps _ s.seq.rc.toNat s).toKeepsInputs

theorem exec_keeps {i : Instr} {s t : State} (h : exec i s = .next t) : KeepsInputs s t := by
  cases exec_cases h with
  | counted => exact ((started_keeps _ _ _ s).trans (iterate_keeps _ _ _)).toKeepsInputs
  | badSize | badLength | noKey => exact (errored_keeps s _).toKeepsInputs
  | hfinalWaits | setkeyWaits | resyncWaits => exact (started_keeps _ _ _ s).toKeepsInputs
  | clr | hfinal | resync | resyncZero => exact (completed_keeps s _ _ _).toKeepsInputs
  | setkey => exact ⟨rfl, rfl, rfl, rfl, rfl⟩

/-- Settles O55: reset rebuilds the state around these fields, and neither a resumed nor a new command writes them. -/
theorem buildParametersNeverChange : Obligations.BuildParametersNeverChange := by
  intro s t h
  cases step_cases h with
  | reset => exact ⟨rfl, rfl, rfl⟩
  | resumed i =>
    have keeps := resume_keeps i s
    exact ⟨keeps.endian, keeps.hasFastpath, keeps.fastAvail⟩
  | stutter => exact ⟨rfl, rfl, rfl⟩
  | illegal => exact ⟨rfl, rfl, rfl⟩
  | command w rest i _ _ _ _ _ hexec =>
    have keeps := exec_keeps hexec
    exact ⟨keeps.endian, keeps.hasFastpath, keeps.fastAvail⟩

end Sys2Proof.Machine
end

section
/-! Equations of single commands that `Laws/Exec.lean` states for some outcomes only, and of resumed commands: each is its
shared operations carried out, on which the proofs below go by `Counted` and by these equations. -/

namespace Sys2Proof.Machine

theorem exec_clr (s : State) : exec .clr s = .next (completed s Engine.zero s.din []) := by
  simp [exec, execClr, clrBody, finish_eq, completed, zeroise, latch]

theorem exec_setkey_refused {klen : Nat} (s : State) (h : klenLegal klen = false) :
    exec (.setkey klen) s = .next (errored s 3#3) := by
  simp [exec, execSetkey, h, raiseErr_eq, responseCode]

theorem exec_setkey_done (s : State) {key : Block} {rest : List Block} (hd : s.din = key :: rest) :
    exec (.setkey 32) s = .next { completed s s.eng rest [] with k := key, kv := true } := by
  simp [exec, execSetkey, klenLegal, setkeyBody, dinPop, hd, latch, finish_eq, storeKey, completed]

/-- A counted command latches and runs the rounds that `RC` counts, whatever its operand. -/
theorem exec_counted {s : State} {i : Instr} {f : Streams} {n : Nat} {fs : Option Bool} (h : Counted s i f n fs) :
    exec i s = .next (iterate f (n % 65536) (started i n fs s)) := by
  have hrc : (started i n fs s).seq.rc.toNat = n % 65536 := by simp
  rw [← hrc]
  cases h <;> rfl

/-- A counted command that waited goes on with the rounds that `RC` counts. -/
theorem resume_counted {s : State} {i : Instr} {f : Streams} {n : Nat} {fs : Option Bool} (h : Counted s i f n fs) :
    resume i s = iterate f s.seq.rc.toNat s := by
  cases h <;> rfl

theorem resume_hfinal_waits (dsize len : Nat) {s : State} (hd : s.din = []) : resume (.hfinal dsize len) s = s := by
  simp [resume, hfinalBody, dinPop, hd]

theorem resume_hfinal_done (dsize len : Nat) {s : State} {f : Block} {rest : List Block} (hd : s.din = f :: rest) :
    resume (.hfinal dsize len) s = completed s Engine.zero rest
      [⟨truncateBlock dsize (digest s.endian (padBlock len f) s.eng), BitVec.ofNat 6 dsize⟩] := by
  simp [resume, hfinalBody, dinPop, hd, finish_eq, zeroise, doutPush, completed]

theorem resume_setkey_waits (klen : Nat) {s : State} (hd : s.din = []) : resume (.setkey klen) s = s := by
  simp [resume, setkeyBody, dinPop, hd]

theorem resume_setkey_done (klen : Nat) {s : State} {key : Block} {rest : List Block} (hd : s.din = key :: rest) :
    resume (.setkey klen) s = { completed s s.eng rest [] with k := key, kv := true } := by
  simp [resume, setkeyBody, dinPop, hd, finish_eq, storeKey, completed]

theorem resume_resync_waits {s : State} (hd : s.din = []) : resume (.resync true) s = s := by
  simp [resume, resyncBody, dinPop, hd]

theorem resume_resync_iv {s : State} {iv : Block} {rest : List Block} (hd : s.din = iv :: rest) :
    resume (.resync true) s = completed s (resyncEngine s.endian s.k iv) rest [] := by
  simp [resume, resyncBody, dinPop, hd, resyncWith, finish_eq, completed]

end Sys2Proof.Machine
end

section
/-! What a word that decodes can carry: the first half of 30_encoding R61, which a latched command needs. -/

namespace Sys2Proof

/-- Every operand of a decoded command is a field of its word, and a field fits its width. -/
theorem wellFormed_of_decode {w : Word} {i : Instr} (h : decode w = .ok i) : WellFormed i = true := by
  have hcount : decide (field w 15 0 < 65536) = true := decide_eq_true (field_lt w 15 0)
  obtain hop | hop | hop | hop | hop | hop | hop | hop : (field w 31 28 = 0 ∨ 8 ≤ field w 31 28) ∨
      field w 31 28 = 1 ∨ field w 31 28 = 2 ∨ field w 31 28 = 3 ∨ field w 31 28 = 4 ∨ field w 31 28 = 5 ∨
      field w 31 28 = 6 ∨ field w 31 28 = 7 := by omega
  · rw [decode_of_reserved hop] at h
    cases h
  · rw [decode_of_opcode1 hop] at h
    split at h <;> cases h
    rfl
  · rw [decode_of_opcode2 hop] at h
    split at h
    · cases h
    · split at h <;> cases h <;> exact hcount
  · rw [decode_of_opcode3 hop] at h
    split at h <;> cases h
    simp only [WellFormed, Bool.and_eq_true, decide_eq_true_eq]
    exact ⟨field_lt w 15 8, field_lt w 4 0⟩
  · rw [decode_of_opcode4 hop] at h
    split at h <;> cases h
    exact decide_eq_true (field_lt w 7 0)
  · rw [decode_of_opcode5 hop] at h
    split at h <;> cases h
    rfl
  · rw [decode_of_opcode6 hop] at h
    split at h
    · cases h
    · split at h
      · cases h
      · split at h <;> cases h <;> exact hcount
  · rw [decode_of_opcode7 hop] at h
    split at h
    · cases h
    · split at h <;> cases h
      exact hcount

end Sys2Proof
end

section
/-! The invariant of the block (10_state R33, 20_memory R48, 60_exceptions R137): what each outcome of a command and of a step
leaves meets it. A latched command has all of the invariant but `WaitOk` while it runs, and `WaitOk` again where it waits. -/

namespace Sys2Proof.Machine

/-! Entries of `dout`. -/

/-- A whole block has no byte past its count. -/
theorem entryOk_whole (b : Block) : EntryOk ⟨b, 32#6⟩ :=
  ⟨Nat.le_add_left 1 31, Nat.le_refl 32, fun k hk => absurd hk (Nat.not_le.2 k.isLt)⟩

theorem entryOk_of_mem_fullEntries {bs : List Block} {x : OutEntry} (h : x ∈ fullEntries bs) : EntryOk x := by
  obtain ⟨b, -, rfl⟩ := List.mem_map.1 h
  exact entryOk_whole b

theorem dsizeLegal_iff (dsize : Nat) : dsizeLegal dsize = true ↔ 1 ≤ dsize ∧ dsize ≤ 32 := by
  simp [dsizeLegal]

/-- The 6-bit byte count holds every legal digest size, and truncation leaves zero bytes from there on. -/
theorem entryOk_truncated {dsize : Nat} (h : 1 ≤ dsize ∧ dsize ≤ 32) (o : Block) :
    EntryOk ⟨truncateBlock dsize o, BitVec.ofNat 6 dsize⟩ := by
  have hn : (BitVec.ofNat 6 dsize).toNat = dsize := by
    rw [BitVec.toNat_ofNat, Nat.mod_eq_of_lt (by omega)]
  refine ⟨hn.symm ▸ h.1, hn.symm ▸ h.2, fun k hk => ?_⟩
  simp only [hn] at hk
  rw [truncateBlock_get, if_neg (Nat.not_lt.2 hk)]

/-! States in which no command is latched. -/

theorem seqOk_of_idle {s : State} (h : s.seq = Sequencer.idle) : SeqOk s := by
  unfold SeqOk
  rw [h]
  rfl

theorem codeOk_append {s : State} {c : BitVec 3} (hs : ∀ x ∈ s.resp, CodeOk x) (hc : CodeOk c) :
    ∀ x ∈ s.resp ++ [c], CodeOk x := by
  simpa [or_imp, forall_and] using ⟨hs, hc⟩

theorem blockInv_hardwareReset (s : State) : BlockInv (hardwareReset s) :=
  ⟨fun _ => rfl, seqOk_of_idle rfl, List.forall_mem_nil _, List.forall_mem_nil _⟩

theorem BlockInv.errored {s : State} {c : BitVec 3} (hs : BlockInv s) (hc : CodeOk c) : BlockInv (errored s c) := by
  obtain ⟨hkey, -, hdout, hresp⟩ := hs
  exact ⟨hkey, seqOk_of_idle rfl, hdout, codeOk_append hresp hc⟩

theorem BlockInv.completed {s : State} {outs : List OutEntry} (hs : BlockInv s) (g : Engine) (rest : List Block)
    (houts : ∀ x ∈ outs, EntryOk x) : BlockInv (completed s g rest outs) := by
  obtain ⟨hkey, -, hdout, hresp⟩ := hs
  exact ⟨hkey, seqOk_of_idle rfl, fun x hx => (List.mem_append.1 hx).elim (hdout x) (houts x),
    codeOk_append hresp (Nat.zero_le 4)⟩

/-- Storing a key sets `KV` with it, so that `K` is free. -/
theorem BlockInv.keyStored {s : State} (hs : BlockInv s) (hidle : s.seq = Sequencer.idle) (key : Block) :
    BlockInv { s with k := key, kv := true } := by
  obtain ⟨-, -, hdout, hresp⟩ := hs
  exact ⟨fun hkv => Bool.noConfusion hkv, seqOk_of_idle hidle, hdout, hresp⟩

/-! States in which a command is latched. -/

/-- The invariant without `WaitOk`: command `i` is latched in `s` and may be running. -/
structure Latched (i : Instr) (s : State) : Prop where
  key : KeyOk s
  phase : s.seq.phase = .busy i
  wf : WellFormed i = true
  sample : s.seq.fastSample.isSome = (s.hasFastpath && samplesGate i)
  dout : ∀ x ∈ s.dout, EntryOk x
  resp : ∀ c ∈ s.resp, CodeOk c

theorem Latched.blockInv {i : Instr} {s : State} (h : Latched i s) (hw : WaitOk i s) : BlockInv s := by
  refine ⟨h.key, ?_, h.dout, h.resp⟩
  unfold SeqOk
  rw [h.phase]
  exact ⟨h.wf, hw, h.sample⟩

theorem BlockInv.latched {i : Instr} {s : State} (hs : BlockInv s) (hp : s.seq.phase = .busy i) :
    Latched i s ∧ WaitOk i s := by
  obtain ⟨hkey, hseq, hdout, hresp⟩ := hs
  unfold SeqOk at hseq
  rw [hp] at hseq
  obtain ⟨hwf, hw, hsample⟩ := hseq
  exact ⟨⟨hkey, hp, hwf, hsample, hdout, hresp⟩, hw⟩

theorem BlockInv.started {i : Instr} {s : State} {fs : Option Bool} (hs : BlockInv s) (n : Nat)
    (hwf : WellFormed i = true) (hfs : fs.isSome = (s.hasFastpath && samplesGate i)) : Latched i (started i n fs s) := by
  obtain ⟨hkey, -, hdout, hresp⟩ := hs
  exact ⟨hkey, rfl, hwf, hfs, hdout, hresp⟩

/-- A command that does not consult the gate holds no sample. -/
theorem noSample_isSome {i : Instr} (s : State) (h : samplesGate i = false) :
    (none : Option Bool).isSome = (s.hasFastpath && samplesGate i) := by
  rw [h, Bool.and_false]
  rfl

theorem gateSample_isSome {i : Instr} (s : State) (h : samplesGate i = true) :
    (gateSample s).isSome = (s.hasFastpath && samplesGate i) := by
  rw [h, Bool.and_true, gateSample]
  cases s.hasFastpath <;> rfl

/-! Counted commands. -/

section
variable {s : State} {i : Instr} {f : Streams} {n : Nat} {fs : Option Bool}

theorem Counted.sample_isSome (h : Counted s i f n fs) : fs.isSome = (s.hasFastpath && samplesGate i) := by
  cases h with
  | ksgen | ksxor => exact gateSample_isSome s rfl
  | pull | push | pullo | pusho | pullx | pushx | hupdate => exact noSample_isSome s rfl

/-- What the sequencer holds while a counted command waits, read off its streams: only one that pops can wait, and only
one that pops both blocks of a round can hold the first. -/
theorem Counted.waitOk (h : Counted s i f n fs) {t : State} (hpops : f.abs = true ∨ f.msk = true)
    (hcount : CountOk n t.seq) (hheld : t.seq.held = none ∨ (f.abs = true ∧ f.msk = true)) : WaitOk i t := by
  cases h with
  | pull | pullo | ksgen => exact absurd hpops (by decide)
  | pushx => exact hcount
  | push | pusho | pullx | ksxor | hupdate => exact ⟨hcount, hheld.resolve_right (by decide)⟩

theorem Counted.of_waitOk (h : Counted s i f n fs) {t : State} (hw : WaitOk i t) :
    CountOk n t.seq ∧ (t.seq.held = none ∨ (f.abs = true ∧ f.msk = true)) := by
  cases h with
  | pull | pullo | ksgen => exact hw.elim
  | pushx => exact ⟨hw, .inr ⟨rfl, rfl⟩⟩
  | push | pusho | pullx | ksxor | hupdate => exact ⟨hw.1, .inl hw.2⟩

theorem Counted.count_lt (h : Counted s i f n fs) (hwf : WellFormed i = true) : n < 65536 := by
  cases h <;> exact of_decide_eq_true hwf

/-- Rounds of a latched command, as many as its operand counts at most, leave it finished or waiting in order. -/
theorem Latched.iterate_blockInv (h : Counted s i f n fs) {u : State} (hu : Latched i u) {m : Nat} (hm : m ≤ n)
    (hheld : u.seq.held = none ∨ (f.abs = true ∧ f.msk = true)) : BlockInv (iterate f m u) := by
  obtain ⟨hk, hkv, -, -, -, -, hfast, -, ⟨outs, hdout⟩, hend⟩ := iterate_spec f m u hheld
  have key : KeyOk (iterate f m u) := fun h0 => hk.trans (hu.key (hkv.symm.trans h0))
  have dout : ∀ x ∈ (iterate f m u).dout, EntryOk x := fun x hx =>
    (List.mem_append.1 (hdout ▸ hx)).elim (hu.dout x) entryOk_of_mem_fullEntries
  rcases hend with ⟨hseq, hresp⟩ | ⟨hresp, -, hpops, r, held, hr1, hrm, hseq, hheld'⟩
  · exact ⟨key, seqOk_of_idle hseq, dout, hresp ▸ codeOk_append hu.resp (Nat.zero_le 4)⟩
  · have latched : Latched i (iterate f m u) := by
      refine ⟨key, ?_, hu.wf, ?_, dout, hresp ▸ hu.resp⟩
      · rw [hseq]; exact hu.phase
      · rw [hseq, hfast]; exact hu.sample
    have hrc : (iterate f m u).seq.rc.toNat = r := by
      rw [hseq]
      exact count_toNat (Nat.lt_of_le_of_lt (hrm.trans hm) (h.count_lt hu.wf))
    refine latched.blockInv (h.waitOk hpops ⟨?_, ?_⟩ ?_)
    · rw [hrc]; exact hr1
    · rw [hrc]; exact hrm.trans hm
    · rw [hseq]; exact hheld'

theorem resume_counted_blockInv (h : Counted s i f n fs) (hs : BlockInv s) (hp : s.seq.phase = .busy i) :
    BlockInv (resume i s) := by
  obtain ⟨hlatched, hw⟩ := hs.latched hp
  obtain ⟨⟨-, hle⟩, hheld⟩ := h.of_waitOk hw
  rw [resume_counted h]
  exact hlatched.iterate_blockInv h hle hheld

end

/-! Commands and steps. -/

theorem exec_blockInv {i : Instr} {s t : State} (hs : BlockInv s) (hwf : WellFormed i = true) (h : exec i s = .next t) :
    BlockInv t := by
  cases exec_cases h with
  | counted hc =>
    exact (hs.started _ hwf hc.sample_isSome).iterate_blockInv hc (Nat.mod_le _ _) (.inl rfl)
  | clr => exact hs.completed _ _ (List.forall_mem_nil _)
  | badSize => exact hs.errored (responseCode_le .errTrunc)
  | badLength => exact hs.errored (responseCode_le .errKeylen)
  | noKey => exact hs.errored (responseCode_le .errNokey)
  | hfinalWaits len hl =>
    obtain ⟨h1, h32⟩ := (dsizeLegal_iff _).1 hl
    exact (hs.started 34 hwf (noSample_isSome s rfl)).blockInv ⟨h1, h32, rfl, rfl⟩
  | hfinal len f rest hl =>
    exact hs.completed _ _ (List.forall_mem_singleton.2 (entryOk_truncated ((dsizeLegal_iff _).1 hl) _))
  | setkeyWaits => exact (hs.started 0 hwf (noSample_isSome s rfl)).blockInv ⟨rfl, rfl, rfl⟩
  | setkey key => exact (hs.completed _ _ (List.forall_mem_nil _)).keyStored rfl key
  | resyncWaits hkv => exact (hs.started 34 hwf (gateSample_isSome s rfl)).blockInv ⟨rfl, hkv, rfl, rfl⟩
  | resync | resyncZero => exact hs.completed _ _ (List.forall_mem_nil _)

theorem resume_blockInv {i : Instr} {s : State} (hs : BlockInv s) (hp : s.seq.phase = .busy i) :
    BlockInv (resume i s) := by
  obtain ⟨-, hw⟩ := hs.latched hp
  cases i with
  | pull n => exact resume_counted_blockInv (.pull n) hs hp
  | push n => exact resume_counted_blockInv (.push n) hs hp
  | pullo n => exact resume_counted_blockInv (.pullo n) hs hp
  | pusho n => exact resume_counted_blockInv (.pusho n) hs hp
  | pullx n => exact resume_counted_blockInv (.pullx n) hs hp
  | pushx n => exact resume_counted_blockInv (.pushx n) hs hp
  | hupdate n => exact resume_counted_blockInv (.hupdate n) hs hp
  | ksgen n => exact resume_counted_blockInv (.ksgen n) hs hp
  | ksxor n => exact resume_counted_blockInv (.ksxor n) hs hp
  | clr => exact hw.elim
  | hfinal dsize len =>
    obtain ⟨h1, h32, -, -⟩ := hw
    cases hd : s.din with
    | nil => rw [resume_hfinal_waits dsize len hd]; exact hs
    | cons f rest =>
      rw [resume_hfinal_done dsize len hd]
      exact hs.completed _ _ (List.forall_mem_singleton.2 (entryOk_truncated ⟨h1, h32⟩ _))
  | setkey klen =>
    cases hd : s.din with
    | nil => rw [resume_setkey_waits klen hd]; exact hs
    | cons key rest =>
      rw [resume_setkey_done klen hd]
      exact (hs.completed _ _ (List.forall_mem_nil _)).keyStored rfl key
  | resync ivp =>
    obtain ⟨rfl, -, -, -⟩ := hw
    cases hd : s.din with
    | nil => rw [resume_resync_waits hd]; exact hs
    | cons iv rest => rw [resume_resync_iv hd]; exact hs.completed _ _ (List.forall_mem_nil _)

/-- The invariant does not speak of `cmd`. -/
theorem BlockInv.cmdTaken {s : State} (hs : BlockInv s) (rest : List Word) : BlockInv { s with cmd := rest } := hs

/-- Settles O60: every outcome of a step keeps the invariant; a word that decodes latches a well-formed command. -/
theorem everyStepKeepsInvariant : Obligations.EveryStepKeepsInvariant := by
  intro s t hs h
  cases step_cases h with
  | reset => exact blockInv_hardwareReset s
  | resumed i _ hp => exact resume_blockInv hs hp
  | stutter => exact hs
  | illegal w rest => exact (hs.cmdTaken rest).errored (responseCode_le .errIllegal)
  | command w rest i _ _ _ _ hw hexec => exact exec_blockInv (hs.cmdTaken rest) (wellFormed_of_decode hw) hexec

/-- Settles O59: the state after reset is what hardware reset makes of it. -/
theorem invariantHoldsAtReset : Obligations.InvariantHoldsAtReset := blockInv_hardwareReset State.reset

end Sys2Proof.Machine
end

section
/-! What commands leave unchanged: `din` only loses blocks at its head, `dout` and `resp` only gain entries behind
(20_memory R47, R48), and the key register is `SETKEY`'s alone (10_state R20, R21, 43_cipher_adapter R117, R128). -/

namespace Sys2Proof.Machine

/-- `t` has a rest of the blocks on `din` of `s`, and all of its `dout` and `resp` with what came behind. -/
structure ExtendsPorts (s t : State) : Prop where
  din : ∃ taken, s.din = taken ++ t.din
  dout : ∃ outs, t.dout = s.dout ++ outs
  resp : ∃ codes, t.resp = s.resp ++ codes

theorem errored_extendsPorts (s : State) (c : BitVec 3) : ExtendsPorts s (errored s c) :=
  ⟨⟨[], rfl⟩, ⟨[], (List.append_nil _).symm⟩, ⟨[c], rfl⟩⟩

theorem started_extendsPorts (i : Instr) (n : Nat) (fs : Option Bool) (s : State) :
    ExtendsPorts s (started i n fs s) :=
  ⟨⟨[], rfl⟩, ⟨[], (List.append_nil _).symm⟩, ⟨[], (List.append_nil _).symm⟩⟩

theorem completed_extendsPorts {s : State} {taken rest : List Block} (hd : s.din = taken ++ rest) (g : Engine)
    (outs : List OutEntry) : ExtendsPorts s (completed s g rest outs) :=
  ⟨⟨taken, hd⟩, ⟨outs, rfl⟩, ⟨[0#3], rfl⟩⟩

/-- Rounds from a state that holds no absorb block. -/
theorem iterate_extendsPorts (f : Streams) (n : Nat) {s : State} (hs : s.seq.held = none) :
    ExtendsPorts s (iterate f n s) := by
  obtain ⟨-, -, -, -, -, -, -, din, ⟨outs, hdout⟩, hend⟩ := iterate_spec f n s (.inl hs)
  refine ⟨din, ⟨fullEntries outs, hdout⟩, ?_⟩
  rcases hend with ⟨-, hresp⟩ | ⟨hresp, -⟩
  · exact ⟨[0#3], hresp⟩
  · exact ⟨[], hresp.trans (List.append_nil _).symm⟩

theorem exec_extendsPorts {i : Instr} {s t : State} (h : exec i s = .next t) : ExtendsPorts s t := by
  cases exec_cases h with
  | counted =>
    obtain ⟨din, dout, resp⟩ := iterate_extendsPorts _ _ (s := started _ _ _ s) rfl
    exact ⟨din, dout, resp⟩
  | badSize | badLength | noKey => exact errored_extendsPorts s _
  | hfinalWaits | setkeyWaits | resyncWaits => exact started_extendsPorts _ _ _ s
  | clr | resyncZero => exact completed_extendsPorts (taken := []) rfl _ _
  | hfinal len f rest _ hd => exact completed_extendsPorts (taken := [f]) hd _ _
  | setkey key rest hd => exact ⟨⟨[key], hd⟩, ⟨[], rfl⟩, ⟨[0#3], rfl⟩⟩
  | resync iv rest _ hd => exact completed_extendsPorts (taken := [iv]) hd _ _

theorem exec_keepsKey {i : Instr} {s t : State} (hi : ∀ klen, i ≠ .setkey klen) (h : exec i s = .next t) :
    KeepsInputsAndKey s t := by
  cases exec_cases h with
  | counted => exact (started_keeps _ _ _ s).trans (iterate_keeps _ _ _)
  | badSize | noKey => exact errored_keeps s _
  | hfinalWaits | resyncWaits => exact started_keeps _ _ _ s
  | clr | hfinal | resync | resyncZero => exact completed_keeps s _ _ _
  | badLength | setkeyWaits | setkey => exact absurd rfl (hi _)

theorem exec_setkey_keepsEngineAndDout {klen : Nat} {s t : State} (h : exec (.setkey klen) s = .next t) :
    t.eng = s.eng ∧ t.dout = s.dout := by
  cases exec_cases h with
  | counted hc => cases hc
  | badLength | setkeyWaits => exact ⟨rfl, rfl⟩
  | setkey => exact ⟨rfl, List.append_nil _⟩

/-- Settles O49: the frame of the inputs, of the ports and of the key, each by the outcomes of a command. -/
theorem commandFrame : Obligations.CommandFrame := by
  intro i s t h
  obtain ⟨cmd, rst, fastAvail, endian, hasFastpath⟩ := exec_keeps h
  obtain ⟨din, dout, resp⟩ := exec_extendsPorts h
  refine ⟨cmd, rst, fastAvail, endian, hasFastpath, din, dout, resp, fun hi => ?_, fun klen hi => ?_⟩
  · have keeps := exec_keepsKey hi h
    exact ⟨keeps.k, keeps.kv⟩
  · subst hi
    exact exec_setkey_keepsEngineAndDout h

end Sys2Proof.Machine
end

section
/-! Another key register in place of `K` (10_state R20): every operation but a resynchronization carries it through. -/

namespace Sys2Proof.Machine

/-- `s` with `key` in the key register, `KV` as it was. -/
def setK (key : Block) (s : State) : State := { s with k := key }

theorem setK_self (s : State) : setK s.k s = s := rfl

theorem setK_setK (key key' : Block) (s : State) : setK key (setK key' s) = setK key s := rfl

theorem setK_completed (key : Block) (s : State) (g : Engine) (rest : List Block) (outs : List OutEntry) :
    completed (setK key s) g rest outs = setK key (completed s g rest outs) := rfl

theorem setK_roundStep (key : Block) (f : Streams) (abs msk : Option Block) (s : State) :
    roundStep f abs msk (setK key s) = setK key (roundStep f abs msk s) := by
  rw [roundStep_eq, roundStep_eq]
  rfl

theorem setK_dinPop (key : Block) (s : State) :
    dinPop (setK key s) = (dinPop s).map fun x => (x.1, setK key x.2) := by
  cases hd : s.din with
  | nil => rw [(dinPop_eq_none s).2 hd, (dinPop_eq_none (setK key s)).2 hd]; rfl
  | cons q rest => rw [dinPop_of_cons hd, dinPop_of_cons (s := setK key s) hd]; rfl

theorem setK_takeAbsorb (key : Block) (s : State) :
    takeAbsorb (setK key s) = (takeAbsorb s).map fun x => (x.1, setK key x.2) := by
  cases hh : s.seq.held with
  | none => rw [takeAbsorb_of_none hh, takeAbsorb_of_none (s := setK key s) hh, setK_dinPop]
  | some q => rw [takeAbsorb_of_some hh, takeAbsorb_of_some (s := setK key s) hh]; rfl

/-- Rounds do not read `K`. -/
theorem iterate_setK (key : Block) (f : Streams) (n : Nat) (s : State) :
    iterate f n (setK key s) = setK key (iterate f n s) := by
  induction n generalizing s with
  | zero => rfl
  | succ n ih =>
    have goOn (abs msk : Option Block) (s1 : State) : iterate f n (roundStep f abs msk (setK key s1)) =
        setK key (iterate f n (roundStep f abs msk s1)) := by rw [setK_roundStep, ih]
    rw [iterate_succ, iterate_succ, setK_takeAbsorb, setK_dinPop]
    split
    · cases takeAbsorb s with
      | none => rfl
      | some x =>
        simp only [Option.map_some, setK_dinPop]
        split
        · cases dinPop x.2 with
          | none => rfl
          | some y => exact goOn _ _ _
        · exact goOn _ _ _
    · split
      · cases dinPop s with
        | none => rfl
        | some x => exact goOn _ _ _
      · exact goOn _ _ _

theorem Counted.setK {s : State} {i : Instr} {f : Streams} {n : Nat} {fs : Option Bool} (h : Counted s i f n fs)
    (key : Block) : Counted (setK key s) i f n fs := by
  cases h <;> constructor

/-- A command that is not `RESYNC` does with another key what it does with `K`, up to the key register itself: `SETKEY` may
replace both. -/
theorem exec_setK {i : Instr} {s t : State} (key : Block) (hi : ∀ ivp, i ≠ .resync ivp) (h : exec i s = .next t) :
    ∃ key', exec i (setK key s) = .next (setK key' t) := by
  cases exec_cases h with
  | counted hc => exact ⟨key, by rw [exec_counted (hc.setK key), ← iterate_setK]; rfl⟩
  | clr => exact ⟨key, exec_clr _⟩
  | badSize len hl => exact ⟨key, exec_hfinal_refused len _ hl⟩
  | hfinalWaits len hl hd => exact ⟨key, exec_hfinal_waits len (setK key s) hl hd⟩
  | hfinal len f rest hl hd =>
    exact ⟨key, by rw [exec_hfinal_done len (setK key s) hl hd, setK_completed]; rfl⟩
  | badLength hl => exact ⟨key, exec_setkey_refused _ hl⟩
  | setkeyWaits hd => exact ⟨key, exec_setkey_waits (setK key s) hd⟩
  | setkey key' rest hd => exact ⟨key', exec_setkey_done (setK key s) hd⟩
  | noKey | resyncWaits | resync | resyncZero => exact absurd rfl (hi _)

/-- Settles O50: the two runs end in states that differ in the key register at most. -/
theorem keyIsReadOnlyByResync : Obligations.KeyIsReadOnlyByResync := by
  intro i key s t t' hi h h'
  obtain ⟨key', hkey⟩ := exec_setK key hi h
  obtain rfl : setK key' t = t' := Host.Outcome.next.inj (hkey.symm.trans h')
  exact setK_self t

end Sys2Proof.Machine
end

section
/-! Reset values (10_state R30) and the physical layout of A (10_state R14). -/

namespace Sys2Proof.Machine

theorem zeroEngine_a_get (i : Fin 17) : Engine.zero.a.get i = 0#32 := vector_get_replicate _ i

theorem zeroEngine_b_get (i : Fin 32) (j : Fin 8) : (Engine.zero.b.get i).get j = 0#32 := by
  rw [Engine.zero, vector_get_replicate, vector_get_replicate]

/-- Settles O11: the zero state word by word; hardware reset is the reset state around the fields it keeps. -/
theorem resetStateValues : Obligations.ResetStateValues :=
  ⟨zeroEngine_a_get, zeroEngine_b_get, rfl, fun j => vector_get_replicate _ j, rfl, rfl, rfl, rfl, rfl, rfl, rfl,
    fun _ => rfl⟩

theorem slotOf_val (i : Fin 17) : (slotOf i).val = (13 * i.val + 16) % 17 := by
  rw [slotOf, Fin.val_add, Fin.val_mul]
  exact Nat.mod_add_mod _ _ _

theorem logicalOf_val (t : Fin 17) : (logicalOf t).val = (4 * t.val + 4) % 17 := by
  rw [logicalOf, Fin.val_add, Fin.val_mul]
  exact Nat.mod_add_mod _ _ _

/-- `13 * 4 = 1` mod 17, so that each map undoes the other. -/
theorem logicalOf_slotOf (i : Fin 17) : logicalOf (slotOf i) = i := by
  apply Fin.ext
  rw [logicalOf_val, slotOf_val]
  omega

theorem slotOf_logicalOf (t : Fin 17) : slotOf (logicalOf t) = t := by
  apply Fin.ext
  rw [slotOf_val, logicalOf_val]
  omega

/-- A stride of 4 words is one slot, since `13 * 4 = 1` mod 17. -/
theorem slotOf_add_four (i : Fin 17) : slotOf (i + 4) = slotOf i + 1 := by
  apply Fin.ext
  have h4 : (i + 4).val = (i.val + 4) % 17 := Fin.val_add i 4
  have h1 : (slotOf i + 1).val = ((slotOf i).val + 1) % 17 := Fin.val_add (slotOf i) 1
  rw [slotOf_val, h4, h1, slotOf_val]
  omega

/-- Settles O58: the map in numbers, its inverse and its stride. -/
theorem physicalLayoutIsBijection : Obligations.PhysicalLayoutIsBijection :=
  ⟨by decide, slotOf_val, logicalOf_slotOf, slotOf_logicalOf, slotOf_add_four⟩

end Sys2Proof.Machine
end

section
/-! Blocks that come late (20_memory R53, 70_reset_and_hazards R164): a command that waits goes on with more blocks on `din`
as it would have run with them from the start, and one that ended leaves them there. -/

namespace Sys2Proof.Machine

/-! More blocks on `din` of the state in which a command is taken. -/

theorem hostPushDin_started (more : List Block) (i : Instr) (n : Nat) (fs : Option Bool) (s : State) :
    hostPushDin more (started i n fs s) = started i n fs (hostPushDin more s) := rfl

theorem hostPushDin_din_cons {s : State} {q : Block} {rest : List Block} (hd : s.din = q :: rest) (more : List Block) :
    (hostPushDin more s).din = q :: (rest ++ more) := by
  rw [hostPushDin_din, hd, List.cons_append]

theorem Counted.hostPushDin {s : State} {i : Instr} {f : Streams} {n : Nat} {fs : Option Bool} (h : Counted s i f n fs)
    (more : List Block) : Counted (hostPushDin more s) i f n fs := by
  cases h <;> constructor

/-- What a waiting counted command does next depends on its command only, not on the state it was taken in. -/
theorem Counted.resume_eq {s : State} {i : Instr} {f : Streams} {n : Nat} {fs : Option Bool} (h : Counted s i f n fs)
    (t : State) : resume i t = iterate f t.seq.rc.toNat t := by
  cases h <;> rfl

/-! A command of one block starts as a waiting one goes on: with its body on the latched state, unless it is refused. -/

theorem exec_hfinal_eq_resume {dsize : Nat} (len : Nat) (s : State) (h : dsizeLegal dsize = true) :
    exec (.hfinal dsize len) s = .next (resume (.hfinal dsize len) (started (.hfinal dsize len) 34 none s)) := by
  simp only [exec, execHfinal, h, if_true, latch_eq_started, fixedRounds, resume]

theorem exec_setkey_eq_resume (s : State) :
    exec (.setkey 32) s = .next (resume (.setkey 32) (started (.setkey 32) 0 none s)) := rfl

theorem exec_resync_refused (ivp : Bool) (s : State) (h : s.kv = false) :
    exec (.resync ivp) s = .next (errored s 4#3) := by
  simp only [exec, execResync, h, Bool.false_eq_true, if_false, raiseErr_eq, responseCode]

theorem exec_resync_eq_resume (ivp : Bool) (s : State) (h : s.kv = true) :
    exec (.resync ivp) s = .next (resume (.resync ivp) (started (.resync ivp) 34 (gateSample s) s)) := by
  simp only [exec, execResync, h, if_true, sampleGate_latch, fixedRounds, resume]

/-! Counted commands: the phase tells which of the two clauses of `iterate_more` applies. -/

/-- Rounds from a latched command answer `OK` when they leave the sequencer idle, and nothing while it is busy. -/
theorem iterate_started_resp (f : Streams) (m : Nat) (i : Instr) (n : Nat) (fs : Option Bool) (s : State) :
    let t := iterate f m (started i n fs s)
    (t.seq.phase = .idle → t.resp = (started i n fs s).resp ++ [0#3]) ∧
    (t.seq.phase = .busy i → t.resp = (started i n fs s).resp) := by
  obtain ⟨-, -, -, -, -, -, -, -, -, hend⟩ := iterate_spec f m (started i n fs s) (.inl rfl)
  rcases hend with ⟨hseq, hresp⟩ | ⟨hresp, -, -, r, held, -, -, hseq, -⟩
  · refine ⟨fun _ => hresp, fun hbusy => ?_⟩
    rw [hseq] at hbusy
    cases hbusy
  · refine ⟨fun hidle => ?_, fun _ => hresp⟩
    rw [hseq] at hidle
    cases hidle

/-! The two clauses. -/

/-- A command that ended, with more blocks behind its own, ends the same way. -/
theorem exec_hostPushDin_of_idle {i : Instr} {s t : State} (more : List Block) (h : exec i s = .next t)
    (hidle : t.seq.phase = .idle) :
    exec i (hostPushDin more s) = .next (hostPushDin more t) := by
  cases exec_cases h with
  | @counted i f n fs hc =>
    have hresp := (iterate_started_resp f (n % 65536) i n fs s).1 hidle
    have hlt : n % 65536 < 65536 := Nat.mod_lt n (by decide)
    rw [exec_counted (hc.hostPushDin more), ← hostPushDin_started, (iterate_more f more _ _ (.inl rfl) hlt).1 hresp]
  | clr => exact exec_clr _
  | badSize len hl => exact exec_hfinal_refused len _ hl
  | hfinal len f rest hl hd => exact exec_hfinal_done len _ hl (hostPushDin_din_cons hd more)
  | badLength hl => exact exec_setkey_refused _ hl
  | setkey key rest hd => exact exec_setkey_done _ (hostPushDin_din_cons hd more)
  | noKey ivp hkv => exact exec_resync_refused ivp _ hkv
  | resync iv rest hkv hd => exact exec_resync_iv _ hkv (hostPushDin_din_cons hd more)
  | resyncZero hkv => exact exec_resync_no_iv _ hkv
  | hfinalWaits | setkeyWaits | resyncWaits => cases hidle

/-- A command that waits goes on, when more blocks come, as it does with these from the start. -/
theorem exec_hostPushDin_of_busy {i : Instr} {s t : State} (more : List Block) (h : exec i s = .next t)
    (hbusy : t.seq.phase = .busy i) :
    exec i (hostPushDin more s) = .next (resume i (hostPushDin more t)) := by
  cases exec_cases h with
  | @counted i f n fs hc =>
    have hresp := (iterate_started_resp f (n % 65536) i n fs s).2 hbusy
    have hlt : n % 65536 < 65536 := Nat.mod_lt n (by decide)
    rw [exec_counted (hc.hostPushDin more), ← hostPushDin_started, ← (iterate_more f more _ _ (.inl rfl) hlt).2 hresp,
      hc.resume_eq, hostPushDin_seq]
  | hfinalWaits len hl => exact exec_hfinal_eq_resume len (hostPushDin more s) hl
  | setkeyWaits => exact exec_setkey_eq_resume (hostPushDin more s)
  | resyncWaits hkv => exact exec_resync_eq_resume true (hostPushDin more s) hkv
  | clr | badSize | hfinal | badLength | setkey | noKey | resync | resyncZero => cases hbusy

theorem step_of_busy {i : Instr} {s : State} (hr : s.rst = false) (hp : s.seq.phase = .busy i) :
    step s = .next (resume i s) := by
  simp only [step, hr, Bool.false_eq_true, if_false, hp]

/-- Settles O47: a busy block's step is the rest of its command, a command's end is its next state. -/
theorem lateBlocksAreEquivalent : Obligations.LateBlocksAreEquivalent := by
  intro i more s t _ hrst h
  refine ⟨fun hbusy => ?_, exec_hostPushDin_of_idle more h⟩
  have hr : t.rst = false := (exec_keeps h).rst.trans hrst
  rw [exec_hostPushDin_of_busy more h hbusy, step_of_busy (s := hostPushDin more t) hr hbusy]

end Sys2Proof.Machine
end

section
/-! Words and bytes of a block in numbers (20_memory R41, R42), and the mask on either (R44). -/

namespace Sys2Proof.Machine

/-! Words. -/

/-- Parts that do not overlap are joined by addition as well as by OR. -/
theorem or_shiftLeft_toNat {x y : Word} {n : Nat} (hx : x.toNat < 2 ^ n) (hy : y.toNat * 2 ^ n < 2 ^ 32) :
    (x ||| y <<< n).toNat = x.toNat + y.toNat * 2 ^ n := by
  rw [BitVec.toNat_or, BitVec.toNat_shiftLeft, Nat.shiftLeft_eq, Nat.mod_eq_of_lt hy, Nat.or_comm, Nat.mul_comm,
    ← Nat.two_pow_add_eq_or_of_lt hx, Nat.add_comm]

/-- Four bytes as a word, the least significant first. -/
def joinBytes (b0 b1 b2 b3 : Byte) : Word :=
  b0.setWidth 32 ||| b1.setWidth 32 <<< 8 ||| b2.setWidth 32 <<< 16 ||| b3.setWidth 32 <<< 24

theorem joinBytes_toNat (b0 b1 b2 b3 : Byte) :
    (joinBytes b0 b1 b2 b3).toNat = b0.toNat + b1.toNat * 2 ^ 8 + b2.toNat * 2 ^ 16 + b3.toNat * 2 ^ 24 := by
  have widen (b : Byte) : (b.setWidth 32).toNat = b.toNat := BitVec.toNat_setWidth_of_le (by decide)
  have h0 := b0.isLt
  have h1 := b1.isLt
  have h2 := b2.isLt
  have h3 := b3.isLt
  have j1 : (b0.setWidth 32 ||| b1.setWidth 32 <<< 8).toNat = b0.toNat + b1.toNat * 2 ^ 8 := by
    rw [or_shiftLeft_toNat] <;> simp only [widen] <;> omega
  have j2 : (b0.setWidth 32 ||| b1.setWidth 32 <<< 8 ||| b2.setWidth 32 <<< 16).toNat =
      b0.toNat + b1.toNat * 2 ^ 8 + b2.toNat * 2 ^ 16 := by
    rw [or_shiftLeft_toNat] <;> simp only [j1, widen] <;> omega
  rw [joinBytes, or_shiftLeft_toNat] <;> simp only [j2, widen] <;> omega

theorem word_le (blk : Block) (i : Fin 8) :
    word .le blk i = joinBytes (byteOf blk i 0) (byteOf blk i 1) (byteOf blk i 2) (byteOf blk i 3) := rfl

theorem or_reverse (x y z w : Word) : x ||| y ||| z ||| w = w ||| z ||| y ||| x := by ac_rfl

/-- Big-endian is little-endian with the bytes in the other order. -/
theorem word_be (blk : Block) (i : Fin 8) :
    word .be blk i = joinBytes (byteOf blk i 3) (byteOf blk i 2) (byteOf blk i 1) (byteOf blk i 0) :=
  or_reverse _ _ _ _

/-! Bytes. -/

theorem byteOfWord_le_toNat (w : Word) (j : Fin 4) :
    (byteOfWord .le w j).toNat = w.toNat / 2 ^ (8 * j.val) % 256 := by
  rw [byteOfWord, BitVec.extractLsb'_toNat, Nat.shiftRight_eq_div_pow]

theorem byteOfWord_be_toNat (w : Word) (j : Fin 4) :
    (byteOfWord .be w j).toNat = w.toNat / 2 ^ (8 * (3 - j.val)) % 256 := by
  rw [byteOfWord, BitVec.extractLsb'_toNat, Nat.shiftRight_eq_div_pow, Nat.mul_sub]

/-- Big-endian bytes are the little-endian ones in the other order. -/
theorem byteOfWord_be (w : Word) (j : Fin 4) : byteOfWord .be w j = byteOfWord .le w j.rev := by
  apply BitVec.eq_of_toNat_eq
  rw [byteOfWord_be_toNat, byteOfWord_le_toNat, Fin.val_rev, Nat.sub_add_eq, Nat.sub_right_comm]

theorem byteOfWord_xor (e : Endian) (v w : Word) (j : Fin 4) :
    byteOfWord e (v ^^^ w) j = byteOfWord e v j ^^^ byteOfWord e w j := by
  cases e <;> exact BitVec.extractLsb'_xor

/-! Each undoes the other. -/

theorem byteOfWord_joinBytes (b : Fin 4 → Byte) (j : Fin 4) :
    byteOfWord .le (joinBytes (b 0) (b 1) (b 2) (b 3)) j = b j := by
  have h0 := (b 0).isLt
  have h1 := (b 1).isLt
  have h2 := (b 2).isLt
  have h3 := (b 3).isLt
  apply BitVec.eq_of_toNat_eq
  rw [byteOfWord_le_toNat, joinBytes_toNat]
  match j with
  | 0 | 1 | 2 | 3 =>
    simp only [Fin.coe_ofNat_eq_mod, Nat.reduceMod, Nat.reduceMul, Nat.reducePow]
    omega

theorem joinBytes_byteOfWord (w : Word) :
    joinBytes (byteOfWord .le w 0) (byteOfWord .le w 1) (byteOfWord .le w 2) (byteOfWord .le w 3) = w := by
  have hw := w.isLt
  apply BitVec.eq_of_toNat_eq
  simp only [joinBytes_toNat, byteOfWord_le_toNat, Fin.coe_ofNat_eq_mod, Nat.reduceMod, Nat.reduceMul, Nat.reducePow]
  omega

theorem byteOfWord_word (e : Endian) (blk : Block) (i : Fin 8) (j : Fin 4) :
    byteOfWord e (word e blk i) j = byteOf blk i j := by
  cases e with
  | le => exact byteOfWord_joinBytes (byteOf blk i) j
  | be =>
    rw [byteOfWord_be, word_be, ← Fin.rev_rev j, Fin.rev_rev j.rev]
    exact byteOfWord_joinBytes (fun l => byteOf blk i l.rev) j.rev

/-- Output word `i` occupies bytes `4i` to `4i + 3` (20_memory R42). -/
theorem byteOf_wordsBlock (e : Endian) (ws : Stage) (i : Fin 8) (j : Fin 4) :
    byteOf (wordsBlock e ws) i j = byteOfWord e (ws.get i) j := by
  rw [byteOf, wordsBlock_get]
  have hi : (⟨(4 * i.val + j.val) / 4, by omega⟩ : Fin 8) = i := Fin.ext (by dsimp only; omega)
  have hj : (⟨(4 * i.val + j.val) % 4, by omega⟩ : Fin 4) = j := Fin.ext (by dsimp only; omega)
  rw [hi, hj]

theorem word_wordsBlock (e : Endian) (ws : Stage) (i : Fin 8) : word e (wordsBlock e ws) i = ws.get i := by
  cases e with
  | le => simp only [word_le, byteOf_wordsBlock, joinBytes_byteOfWord]
  | be =>
    simp only [word_be, byteOf_wordsBlock, byteOfWord_be]
    exact joinBytes_byteOfWord _

/-- Byte `k` of a block is byte `k mod 4` of its word `k div 4`. -/
theorem get_eq_byteOf (blk : Block) (k : Fin 32) :
    blk.get k = byteOf blk ⟨k.val / 4, by omega⟩ ⟨k.val % 4, by omega⟩ :=
  congrArg blk.get (Fin.ext (Nat.div_add_mod k.val 4).symm)

theorem wordsBlock_blockWords (e : Endian) (blk : Block) : wordsBlock e (blockWords e blk) = blk := by
  apply vector_ext_get
  intro k
  rw [wordsBlock_get, blockWords_get, byteOfWord_word, ← get_eq_byteOf]

/-- Settles O22: words and bytes by `joinBytes` and by division, which undo each other. -/
theorem wordsAndBytesOfBlocks : Obligations.WordsAndBytesOfBlocks := by
  refine ⟨fun blk i => ⟨?_, ?_⟩, fun w j => ⟨byteOfWord_le_toNat w j, byteOfWord_be_toNat w j⟩, byteOf_wordsBlock,
    word_wordsBlock, wordsBlock_blockWords⟩
  · rw [word_le, joinBytes_toNat]
  · rw [word_be, joinBytes_toNat]
    omega

/-! The mask. -/

theorem byteOf_xorBlock (x y : Block) (i : Fin 8) (j : Fin 4) :
    byteOf (xorBlock x y) i j = byteOf x i j ^^^ byteOf y i j := xorBlock_get x y _

theorem roundOutput_masked (e : Endian) (m : Block) (g : Engine) :
    roundOutput e (some m) g = xorBlock (wordsBlock e (outWords g.a)) m := rfl

/-- Settles O23: bytes of the output words XOR bytes of the mask, and the bytes of an XOR are the XOR of the bytes. -/
theorem maskOnBytesIsMaskOnWords : Obligations.MaskOnBytesIsMaskOnWords := by
  intro e g m
  refine ⟨fun k => ?_, fun i j => ?_⟩
  · rw [roundOutput_masked, xorBlock_get, wordsBlock_get, outWords_get]
    simp only [Nat.add_comm]
  · rw [roundOutput_masked, byteOf_xorBlock, byteOf_wordsBlock, outWords_get, byteOfWord_xor, byteOfWord_word]

end Sys2Proof.Machine
end

section
/-! The stages of a round (20_memory R36 to R38). -/

namespace Sys2Proof.Machine

/-- A round's buffer is that of its buffer update, which writes `s0` and `s25` only. -/
theorem roundEngine_b_get_of_ne (e : Endian) (abs : Option Block) (g : Engine) {t : Fin 32} (h0 : t ≠ stage0 g.p)
    (h25 : t ≠ stage25 g.p) : (roundEngine e abs g).b.get t = g.b.get t :=
  (bufferUpdate_get _ g.p t g.b).trans ((if_neg h25).trans (if_neg h0))

/-- Settles O16: the output of a round has no part in its engine, which leaves the other stages. -/
theorem roundLeavesOtherStages : Obligations.RoundLeavesOtherStages :=
  fun e abs _ _ g _ h0 h25 => roundEngine_b_get_of_ne e abs g h0 h25

theorem stage16_val (p : Fin 32) : (stage16 p).val = (p.val + 16) % 32 := Fin.val_add p 16

theorem stage4_val (p : Fin 32) : (stage4 p).val = (p.val + 28) % 32 := by
  rw [stage4, Fin.val_sub, Nat.add_comm]
  rfl

theorem stage0_val (p : Fin 32) : (stage0 p).val = (p.val + 1) % 32 := Fin.val_add p 1

theorem stage25_val (p : Fin 32) : (stage25 p).val = (p.val + 8) % 32 := by
  rw [stage25, Fin.val_sub]
  change (7 + (p.val + 1) % 32) % 32 = _
  omega

/-- Settles O13: the four offsets, and that no two of them agree mod 32. -/
theorem stageAddressesOfRound : Obligations.StageAddressesOfRound := by
  intro p
  refine ⟨stage16_val p, stage4_val p, stage0_val p, stage25_val p, ?_⟩
  simp only [List.nodup_cons, List.mem_cons, List.not_mem_nil, or_false, not_or, Fin.ext_iff, stage16_val, stage4_val,
    stage0_val, stage25_val, not_false_eq_true, List.nodup_nil, and_true]
  omega

end Sys2Proof.Machine
end

section
/-! The decoder is the opcode map (30_encoding R62, R68): a word decodes to a command exactly when it matches the command's row
under its mask, and the operands are the bits that the mask leaves. Both round trips, the map and the illegal words follow. -/

namespace Sys2Proof

/-- The command of mnemonic `m` with its operands read from `w` (30_encoding R57 to R60). -/
def commandOf (m : Mnemonic) (w : Word) : Instr :=
  match m with
  | .clr => .clr
  | .pull => .pull (field w 15 0)
  | .push => .push (field w 15 0)
  | .pullo => .pullo (field w 15 0)
  | .pusho => .pusho (field w 15 0)
  | .pullx => .pullx (field w 15 0)
  | .pushx => .pushx (field w 15 0)
  | .hfinal => .hfinal (field w 15 8) (field w 4 0)
  | .setkey => .setkey (field w 7 0)
  | .resync => .resync (decide (field w 0 0 = 1))
  | .ksgen => .ksgen (field w 15 0)
  | .ksxor => .ksxor (field w 15 0)
  | .hupdate => .hupdate (field w 15 0)

/-- The operands of a command as the number they make in its word. -/
def operandBits : Instr → Nat
  | .clr => 0
  | .hfinal dsize len => dsize * 2 ^ 8 + len
  | .setkey klen => klen
  | .resync ivp => ivp.toNat
  | .pull count | .push count | .pullo count | .pusho count | .pullx count | .pushx count | .ksgen count | .ksxor count
  | .hupdate count => count

/-- The bits of `w` that the mask of `m` keeps, as a number of its fields (30_encoding R62). -/
def fixedBits (m : Mnemonic) (w : Word) : Nat :=
  match m with
  | .clr => field w 31 0
  | .hfinal => field w 31 16 * 2 ^ 16 + field w 7 5 * 2 ^ 5
  | .setkey => field w 31 8 * 2 ^ 8
  | .resync => field w 31 1 * 2 ^ 1
  | .pull | .push | .pullo | .pusho | .pullx | .pushx | .ksgen | .ksxor | .hupdate => field w 31 16 * 2 ^ 16

/-- The mask of one field keeps that field in its place. -/
theorem and_fieldMask_toNat (w : Word) (n lo : Nat) (h : lo + n ≤ 32) :
    (w &&& BitVec.ofNat 32 ((2 ^ n - 1) * 2 ^ lo)).toNat = w.toNat / 2 ^ lo % 2 ^ n * 2 ^ lo := by
  have hmask : (2 ^ n - 1) * 2 ^ lo < 2 ^ 32 := calc
    (2 ^ n - 1) * 2 ^ lo < 2 ^ n * 2 ^ lo := Nat.mul_lt_mul_of_pos_right (by simp) (by positivity)
    _ = 2 ^ (lo + n) := by rw [Nat.pow_add, Nat.mul_comm]
    _ ≤ 2 ^ 32 := Nat.pow_le_pow_right (by decide) h
  rw [BitVec.toNat_and, BitVec.toNat_ofNat, Nat.mod_eq_of_lt hmask]
  apply Nat.eq_of_testBit_eq
  intro j
  rw [Nat.testBit_and, ← Nat.shiftLeft_eq, ← Nat.shiftLeft_eq, Nat.testBit_shiftLeft, Nat.testBit_shiftLeft,
    Nat.testBit_two_pow_sub_one, Nat.testBit_mod_two_pow, ← Nat.shiftRight_eq_div_pow, Nat.testBit_shiftRight]
  by_cases hj : lo ≤ j
  · simp [hj, Bool.and_comm]
  · simp [hj]

theorem and_maskWord_toNat (m : Mnemonic) (w : Word) : (w &&& maskWord m).toNat = fixedBits m w := by
  have high := and_fieldMask_toNat w 16 16 (by decide)
  cases m with
  | pull | push | pullo | pusho | pullx | pushx | ksgen | ksxor | hupdate => exact high
  | clr => exact (and_fieldMask_toNat w 32 0 (by decide)).trans (Nat.mul_one _)
  | setkey => exact and_fieldMask_toNat w 24 8 (by decide)
  | resync => exact and_fieldMask_toNat w 31 1 (by decide)
  | hfinal =>
    have low := and_fieldMask_toNat w 3 5 (by decide)
    have split : maskWord .hfinal = 0xFFFF0000#32 ||| 0xE0#32 := by decide
    have hlow : field w 7 5 * 2 ^ 5 < 2 ^ 16 := by
      have := field_lt w 7 5
      omega
    have joined : (w &&& maskWord .hfinal).toNat = field w 31 16 * 2 ^ 16 ||| field w 7 5 * 2 ^ 5 := by
      rw [split, BitVec.and_or_distrib_left, BitVec.toNat_or]
      exact congrArg₂ (· ||| ·) high low
    rw [joined, fixedBits, Nat.mul_comm _ (2 ^ 16), Nat.two_pow_add_eq_or_of_lt hlow]

/-- A word is the bits its row fixes and its operands. -/
theorem fixedBits_add_operandBits (m : Mnemonic) (w : Word) :
    fixedBits m w + operandBits (commandOf m w) = w.toNat := by
  have hw := w.isLt
  cases m with
  | resync =>
    have hbit : (decide (field w 0 0 = 1)).toNat = field w 0 0 := by
      have := field_lt w 0 0
      rcases (by omega : field w 0 0 = 0 ∨ field w 0 0 = 1) with h | h <;> rw [h] <;> rfl
    simp only [fixedBits, commandOf, operandBits]
    rw [hbit]
    simp only [field]
    omega
  | clr | pull | push | pullo | pusho | pullx | pushx | hfinal | setkey | ksgen | ksxor | hupdate =>
    simp only [fixedBits, commandOf, operandBits, field]
    omega

/-- The word of a command is its row's match word with the operands in the bits the row leaves (30_encoding R62). -/
theorem encode_toNat {i : Instr} (h : WellFormed i = true) :
    (encode i).toNat = (matchWord (mnemonicOf i)).toNat + operandBits i := by
  cases i with
  | clr => rfl
  | resync ivp => cases ivp <;> rfl
  | hfinal dsize len =>
    simp only [WellFormed, Bool.and_eq_true, decide_eq_true_eq] at h
    simp only [encode, mnemonicOf, matchWord, operandBits, BitVec.toNat_ofNat]
    omega
  | setkey | pull | push | pullo | pusho | pullx | pushx | ksgen | ksxor | hupdate =>
    simp only [WellFormed, decide_eq_true_eq] at h
    simp only [encode, formatI, mnemonicOf, matchWord, operandBits, BitVec.toNat_ofNat]
    omega

theorem commandOf_encode {i : Instr} (h : WellFormed i = true) : commandOf (mnemonicOf i) (encode i) = i := by
  have hnum := encode_toNat h
  cases i with
  | clr => rfl
  | resync ivp => cases ivp <;> rfl
  | hfinal dsize len =>
    simp only [WellFormed, Bool.and_eq_true, decide_eq_true_eq] at h
    simp only [mnemonicOf, matchWord, operandBits, commandOf, field, hnum, BitVec.toNat_ofNat, Instr.hfinal.injEq]
    omega
  | setkey | pull | push | pullo | pusho | pullx | pushx | ksgen | ksxor | hupdate =>
    simp only [WellFormed, decide_eq_true_eq] at h
    simp only [mnemonicOf, matchWord, operandBits, commandOf, field, hnum, BitVec.toNat_ofNat]
    congr 1
    omega

theorem fixedBits_encode {i : Instr} (h : WellFormed i = true) :
    fixedBits (mnemonicOf i) (encode i) = (matchWord (mnemonicOf i)).toNat := by
  have hword := fixedBits_add_operandBits (mnemonicOf i) (encode i)
  rw [commandOf_encode h, encode_toNat h] at hword
  exact Nat.add_right_cancel hword

/-! The decoder by the map. -/

theorem mnemonicOf_commandOf (m : Mnemonic) (w : Word) : mnemonicOf (commandOf m w) = m := by
  cases m <;> rfl

/-- `w` is of the row of `m`: the opcode, reserved bits and flags as the decoder tests them (30_encoding R63 to R65, R68). -/
def InRow (m : Mnemonic) (w : Word) : Prop :=
  match m with
  | .clr => field w 31 28 = 1 ∧ field w 27 0 = 0
  | .pull => field w 31 28 = 2 ∧ ¬(field w 27 27 ≠ 0 ∨ field w 23 16 ≠ 0) ∧ field w 26 24 = 0b000
  | .push => field w 31 28 = 2 ∧ ¬(field w 27 27 ≠ 0 ∨ field w 23 16 ≠ 0) ∧ field w 26 24 = 0b001
  | .pullo => field w 31 28 = 2 ∧ ¬(field w 27 27 ≠ 0 ∨ field w 23 16 ≠ 0) ∧ field w 26 24 = 0b010
  | .pusho => field w 31 28 = 2 ∧ ¬(field w 27 27 ≠ 0 ∨ field w 23 16 ≠ 0) ∧ field w 26 24 = 0b011
  | .pullx => field w 31 28 = 2 ∧ ¬(field w 27 27 ≠ 0 ∨ field w 23 16 ≠ 0) ∧ field w 26 24 = 0b110
  | .pushx => field w 31 28 = 2 ∧ ¬(field w 27 27 ≠ 0 ∨ field w 23 16 ≠ 0) ∧ field w 26 24 = 0b111
  | .hfinal => field w 31 28 = 3 ∧ ¬(field w 27 16 ≠ 0 ∨ field w 7 5 ≠ 0)
  | .setkey => field w 31 28 = 4 ∧ ¬field w 27 8 ≠ 0
  | .resync => field w 31 28 = 5 ∧ ¬field w 27 1 ≠ 0
  | .ksgen => field w 31 28 = 6 ∧ ¬(field w 27 27 ≠ 0 ∨ field w 23 16 ≠ 0) ∧ ¬field w 25 24 ≠ 0 ∧ field w 26 26 = 0
  | .ksxor => field w 31 28 = 6 ∧ ¬(field w 27 27 ≠ 0 ∨ field w 23 16 ≠ 0) ∧ ¬field w 25 24 ≠ 0 ∧ ¬field w 26 26 = 0
  | .hupdate => field w 31 28 = 7 ∧ ¬(field w 27 27 ≠ 0 ∨ field w 23 16 ≠ 0) ∧ ¬field w 26 24 ≠ 0

/-- The decoder's tests for a row are the row's match word under its mask. -/
theorem fixedBits_eq_iff (m : Mnemonic) (w : Word) : fixedBits m w = (matchWord m).toNat ↔ InRow m w := by
  have hw := w.isLt
  cases m with
  | clr | pull | push | pullo | pusho | pullx | pushx | hfinal | setkey | resync | ksgen | ksxor | hupdate =>
    simp only [fixedBits, matchWord, InRow, field, BitVec.toNat_ofNat]
    omega

theorem and_maskWord_eq_iff (m : Mnemonic) (w : Word) : w &&& maskWord m = matchWord m ↔ InRow m w := by
  rw [← BitVec.toNat_inj, and_maskWord_toNat, fixedBits_eq_iff]

/-- A word of a row decodes to the row's command. -/
theorem decode_of_inRow {m : Mnemonic} {w : Word} (h : InRow m w) : decode w = .ok (commandOf m w) := by
  cases m with
  | clr =>
    obtain ⟨hop, hlow⟩ := h
    rw [decode_of_opcode1 hop, if_pos hlow]
    rfl
  | pull | push | pullo | pusho | pullx | pushx =>
    obtain ⟨hop, hres, hflags⟩ := h
    rw [decode_of_opcode2 hop, if_neg hres, hflags]
    rfl
  | hfinal =>
    obtain ⟨hop, hres⟩ := h
    rw [decode_of_opcode3 hop, if_neg hres]
    rfl
  | setkey =>
    obtain ⟨hop, hres⟩ := h
    rw [decode_of_opcode4 hop, if_neg hres]
    rfl
  | resync =>
    obtain ⟨hop, hres⟩ := h
    rw [decode_of_opcode5 hop, if_neg hres]
    rfl
  | ksgen =>
    obtain ⟨hop, hres, hflags, hmsk⟩ := h
    rw [decode_of_opcode6 hop, if_neg hres, if_neg hflags, if_pos hmsk]
    rfl
  | ksxor =>
    obtain ⟨hop, hres, hflags, hmsk⟩ := h
    rw [decode_of_opcode6 hop, if_neg hres, if_neg hflags, if_neg hmsk]
    rfl
  | hupdate =>
    obtain ⟨hop, hres, hflags⟩ := h
    rw [decode_of_opcode7 hop, if_neg hres, if_neg hflags]
    rfl

/-- The opcodes apart, as the decoder has them: the reserved ones and the seven defined ones. -/
theorem opcode_cases (w : Word) : (field w 31 28 = 0 ∨ 8 ≤ field w 31 28) ∨ field w 31 28 = 1 ∨ field w 31 28 = 2 ∨
    field w 31 28 = 3 ∨ field w 31 28 = 4 ∨ field w 31 28 = 5 ∨ field w 31 28 = 6 ∨ field w 31 28 = 7 := by
  omega

/-- A word that decodes is of a row, and decodes to that row's command. -/
theorem decode_cases {w : Word} {i : Instr} (h : decode w = .ok i) : ∃ m, InRow m w ∧ i = commandOf m w := by
  obtain hop | hop | hop | hop | hop | hop | hop | hop := opcode_cases w
  · rw [decode_of_reserved hop] at h
    cases h
  · rw [decode_of_opcode1 hop] at h
    split at h <;> cases h
    next hlow => exact ⟨.clr, ⟨hop, hlow⟩, rfl⟩
  · rw [decode_of_opcode2 hop] at h
    split at h
    · cases h
    next hres =>
    split at h <;> cases h
    next hflags => exact ⟨.pull, ⟨hop, hres, hflags⟩, rfl⟩
    next hflags => exact ⟨.push, ⟨hop, hres, hflags⟩, rfl⟩
    next hflags => exact ⟨.pullo, ⟨hop, hres, hflags⟩, rfl⟩
    next hflags => exact ⟨.pusho, ⟨hop, hres, hflags⟩, rfl⟩
    next hflags => exact ⟨.pullx, ⟨hop, hres, hflags⟩, rfl⟩
    next hflags => exact ⟨.pushx, ⟨hop, hres, hflags⟩, rfl⟩
  · rw [decode_of_opcode3 hop] at h
    split at h <;> cases h
    next hres => exact ⟨.hfinal, ⟨hop, hres⟩, rfl⟩
  · rw [decode_of_opcode4 hop] at h
    split at h <;> cases h
    next hres => exact ⟨.setkey, ⟨hop, hres⟩, rfl⟩
  · rw [decode_of_opcode5 hop] at h
    split at h <;> cases h
    next hres => exact ⟨.resync, ⟨hop, hres⟩, rfl⟩
  · rw [decode_of_opcode6 hop] at h
    split at h
    · cases h
    next hres =>
    split at h
    · cases h
    next hflags =>
    split at h <;> cases h
    next hmsk => exact ⟨.ksgen, ⟨hop, hres, hflags, hmsk⟩, rfl⟩
    next hmsk => exact ⟨.ksxor, ⟨hop, hres, hflags, hmsk⟩, rfl⟩
  · rw [decode_of_opcode7 hop] at h
    split at h
    · cases h
    next hres =>
    split at h <;> cases h
    next hflags => exact ⟨.hupdate, ⟨hop, hres, hflags⟩, rfl⟩

/-- The decoder is the map: a word decodes to the command of its row. -/
theorem decode_eq_ok_iff (w : Word) (i : Instr) :
    decode w = .ok i ↔ InRow (mnemonicOf i) w ∧ i = commandOf (mnemonicOf i) w := by
  refine ⟨fun h => ?_, fun ⟨hrow, hi⟩ => (decode_of_inRow hrow).trans (congrArg Except.ok hi.symm)⟩
  obtain ⟨m, hrow, rfl⟩ := decode_cases h
  rw [mnemonicOf_commandOf]
  exact ⟨hrow, rfl⟩

/-- Settles O1: the word of a command is of the command's row, and the row reads its operands back. -/
theorem decodeOfEncode : Obligations.DecodeOfEncode := fun i h =>
  (decode_eq_ok_iff _ i).2 ⟨(fixedBits_eq_iff _ _).1 (fixedBits_encode h), (commandOf_encode h).symm⟩

/-- Settles O2: fixed bits and operands are the whole word, on the encoder's side as well. -/
theorem encodeOfDecode : Obligations.EncodeOfDecode := by
  intro w i h
  have hwf := wellFormed_of_decode h
  obtain ⟨hrow, hi⟩ := (decode_eq_ok_iff w i).1 h
  have hword := fixedBits_add_operandBits (mnemonicOf i) w
  rw [(fixedBits_eq_iff _ w).2 hrow, ← hi] at hword
  exact ⟨hwf, BitVec.eq_of_toNat_eq ((encode_toNat hwf).trans hword)⟩

/-- Settles O3: matching under the mask is being of the row, and a word decodes to one command. -/
theorem matchMaskSelectsCommand : Obligations.MatchMaskSelectsCommand := by
  have selects (m : Mnemonic) (w : Word) :
      w &&& maskWord m = matchWord m ↔ ∃ i, decode w = .ok i ∧ mnemonicOf i = m := by
    rw [and_maskWord_eq_iff]
    constructor
    · exact fun hrow => ⟨commandOf m w, decode_of_inRow hrow, mnemonicOf_commandOf m w⟩
    · rintro ⟨i, h, rfl⟩
      exact ((decode_eq_ok_iff w i).1 h).1
  refine ⟨selects, fun m m' w h h' => ?_⟩
  obtain ⟨i, hi, rfl⟩ := (selects m w).1 h
  obtain ⟨i', hi', rfl⟩ := (selects m' w).1 h'
  rw [Except.ok.inj (hi.symm.trans hi')]

/-- Settles O7: each word worked out by the decoder. -/
theorem sampleWordsDecode : Obligations.SampleWordsDecode :=
  ⟨rfl, rfl, rfl, rfl, rfl, rfl, rfl, rfl, rfl, rfl, rfl, rfl⟩

end Sys2Proof
end

section
/-! What each branch of a step answers (41_core_commands R93, 60_exceptions R140), and the words that are no command. -/

namespace Sys2Proof.Machine

/-! The branches of a step. -/

theorem step_of_reset {s : State} (hr : s.rst = true) : step s = .next (hardwareReset s) := by
  simp only [step, hr, if_true]

theorem step_of_empty {s : State} (hr : s.rst = false) (hp : s.seq.phase = .idle) (hc : s.cmd = []) :
    step s = .next s := by
  simp only [step, hr, Bool.false_eq_true, if_false, hp, takeCommand, hc]

theorem step_of_illegal {s : State} {w : Word} {rest : List Word} {e : Illegal} (hr : s.rst = false)
    (hp : s.seq.phase = .idle) (hc : s.cmd = w :: rest) (hw : decode w = .error e) :
    step s = .next (errored { s with cmd := rest } 1#3) := by
  simp only [step, hr, Bool.false_eq_true, if_false, hp, takeCommand_of_cons hc, hw, raiseErr_eq, responseCode]

theorem step_of_command {s : State} {w : Word} {rest : List Word} {i : Instr} (hr : s.rst = false)
    (hp : s.seq.phase = .idle) (hc : s.cmd = w :: rest) (hw : decode w = .ok i) :
    step s = exec i { s with cmd := rest } := by
  simp only [step, hr, Bool.false_eq_true, if_false, hp, takeCommand_of_cons hc, hw]

/-! Words that are no command. -/

/-- A word that is no command is illegal, whatever the reason. -/
theorem answersIllegal_of_no_command {w : Word} (h : ∀ i, decode w ≠ .ok i) : AnswersIllegal w := by
  intro s rest hr hseq hc
  have hp : s.seq.phase = .idle := congrArg Sequencer.phase hseq
  cases hw : decode w with
  | ok i => exact absurd hw (h i)
  | error e => rw [step_of_illegal hr hp hc hw, errored, ← hseq]

theorem answersIllegal_of_reserved {w : Word} (h : w.toNat / 2 ^ 28 = 0 ∨ 8 ≤ w.toNat / 2 ^ 28) : AnswersIllegal w := by
  have hop : field w 31 28 = w.toNat / 2 ^ 28 := Nat.mod_eq_of_lt (by have := w.isLt; omega)
  refine answersIllegal_of_no_command fun i hi => ?_
  rw [decode_of_reserved (hop ▸ h)] at hi
  cases hi

/-- Settles O4: the decoder refuses these opcodes. -/
theorem reservedOpcodeIsIllegal : Obligations.ReservedOpcodeIsIllegal :=
  ⟨fun _ => answersIllegal_of_reserved, answersIllegal_of_reserved (by decide), answersIllegal_of_reserved (by decide)⟩

/-- Every mask keeps the top byte: opcode, bit 27 and flags. -/
theorem topByte_of_inRow {m : Mnemonic} {w : Word} (h : InRow m w) :
    w.toNat / 2 ^ 24 = (matchWord m).toNat / 2 ^ 24 := by
  have hfixed := (fixedBits_eq_iff m w).2 h
  have hw := w.isLt
  cases m with
  | clr | pull | push | pullo | pusho | pullx | pushx | hfinal | setkey | resync | ksgen | ksxor | hupdate =>
    simp only [fixedBits, matchWord, field, BitVec.toNat_ofNat] at hfixed ⊢
    omega

/-- A row's mask keeps the bits that its opcode reserves, and its match word has them zero (30_encoding R62, R64). -/
theorem reservedBit_fixed (m : Mnemonic) (j : Fin 32) (h : reservedBit ((matchWord m).toNat / 2 ^ 28) j = true) :
    (maskWord m).getLsbD j = true ∧ (matchWord m).getLsbD j = false := by
  revert j
  cases m <;> decide

/-- Settles O5: a set reserved bit is kept by the mask of every row of the opcode, in whose match word it is zero. -/
theorem reservedBitIsIllegal : Obligations.ReservedBitIsIllegal := by
  intro w j hres hbit
  refine answersIllegal_of_no_command fun i hi => ?_
  obtain ⟨hrow, -⟩ := (decode_eq_ok_iff w i).1 hi
  have hj : j < 32 := BitVec.lt_of_getLsbD hbit
  have hop : w.toNat / 2 ^ 28 = (matchWord (mnemonicOf i)).toNat / 2 ^ 28 := by
    have := topByte_of_inRow hrow
    omega
  obtain ⟨hmask, hmatch⟩ := reservedBit_fixed (mnemonicOf i) ⟨j, hj⟩ (hop ▸ hres)
  have hkept : (w &&& maskWord (mnemonicOf i)).getLsbD j = true := by rw [BitVec.getLsbD_and, hbit, hmask]; rfl
  rw [(and_maskWord_eq_iff _ w).2 hrow, hmatch] at hkept
  cases hkept

/-- Settles O6: the listed top bytes are those of no match word. -/
theorem reservedFlagsAreIllegal : Obligations.ReservedFlagsAreIllegal := by
  intro w htop
  refine answersIllegal_of_no_command fun i hi => ?_
  rw [topByte_of_inRow ((decode_eq_ok_iff w i).1 hi).1] at htop
  revert htop
  cases mnemonicOf i <;> decide

/-! Steps and commands always answer. -/

theorem exec_answers (i : Instr) (s : State) : ∃ t, exec i s = .next t := by
  cases i with
  | clr => exact ⟨_, exec_clr s⟩
  | hfinal dsize len =>
    cases h : dsizeLegal dsize with
    | false => exact ⟨_, exec_hfinal_refused len s h⟩
    | true => exact ⟨_, exec_hfinal_eq_resume len s h⟩
  | setkey klen =>
    cases h : klenLegal klen with
    | false => exact ⟨_, exec_setkey_refused s h⟩
    | true =>
      obtain rfl : klen = 32 := of_decide_eq_true h
      exact ⟨_, exec_setkey_eq_resume s⟩
  | resync ivp =>
    cases h : s.kv with
    | false => exact ⟨_, exec_resync_refused ivp s h⟩
    | true => exact ⟨_, exec_resync_eq_resume ivp s h⟩
  | pull n => exact ⟨_, exec_counted (.pull n)⟩
  | push n => exact ⟨_, exec_counted (.push n)⟩
  | pullo n => exact ⟨_, exec_counted (.pullo n)⟩
  | pusho n => exact ⟨_, exec_counted (.pusho n)⟩
  | pullx n => exact ⟨_, exec_counted (.pullx n)⟩
  | pushx n => exact ⟨_, exec_counted (.pushx n)⟩
  | ksgen n => exact ⟨_, exec_counted (.ksgen n)⟩
  | ksxor n => exact ⟨_, exec_counted (.ksxor n)⟩
  | hupdate n => exact ⟨_, exec_counted (.hupdate n)⟩

theorem step_answers (s : State) : ∃ t, step s = .next t := by
  cases hr : s.rst with
  | true => exact ⟨_, step_of_reset hr⟩
  | false =>
    cases hp : s.seq.phase with
    | busy i => exact ⟨_, step_of_busy hr hp⟩
    | idle =>
      cases hc : s.cmd with
      | nil => exact ⟨_, step_of_empty hr hp hc⟩
      | cons w rest =>
        cases hw : decode w with
        | error e => exact ⟨_, step_of_illegal hr hp hc hw⟩
        | ok i => rw [step_of_command hr hp hc hw]; exact exec_answers i _

/-- Settles O12: every branch of the step and every arm of the dispatch ends in a next state. -/
theorem everyStepAnswersNext : Obligations.EveryStepAnswersNext := ⟨step_answers, exec_answers⟩

end Sys2Proof.Machine
end

section
/-! The blocks a command moves (30_encoding R72): a round that runs pops a block for each of its two streams in and pushes one
for its stream out, and a command that waits does not respond. -/

namespace Sys2Proof.Machine

/-- From `s` to `t`, `pops` blocks left the head of `din` and `pushes` entries were added to `dout`. -/
structure MovesBlocks (pops pushes : Nat) (s t : State) : Prop where
  popped : ∃ taken, s.din = taken ++ t.din ∧ taken.length = pops
  pushed : ∃ added, t.dout = s.dout ++ added ∧ added.length = pushes

theorem MovesBlocks.trans {a b c d : Nat} {s t u : State} (h : MovesBlocks a b s t) (g : MovesBlocks c d t u) :
    MovesBlocks (a + c) (b + d) s u := by
  obtain ⟨⟨taken, hdin, rfl⟩, added, hdout, rfl⟩ := h
  obtain ⟨⟨taken', hdin', rfl⟩, added', hdout', rfl⟩ := g
  exact ⟨⟨taken ++ taken', by rw [hdin, hdin', List.append_assoc], List.length_append⟩,
    ⟨added ++ added', by rw [hdout', hdout, List.append_assoc], List.length_append⟩⟩

theorem MovesBlocks.refl (s : State) : MovesBlocks 0 0 s s := ⟨⟨[], rfl, rfl⟩, ⟨[], (List.append_nil _).symm, rfl⟩⟩

theorem finish_moves (s : State) : MovesBlocks 0 0 s (finish s) :=
  ⟨⟨[], rfl, rfl⟩, ⟨[], (List.append_nil _).symm, rfl⟩⟩

theorem completed_moves {s : State} {taken rest : List Block} (hd : s.din = taken ++ rest) (g : Engine)
    (outs : List OutEntry) : MovesBlocks taken.length outs.length s (completed s g rest outs) :=
  ⟨⟨taken, hd, rfl⟩, outs, rfl, rfl⟩

theorem dinPop_moves {s t : State} {q : Block} (h : dinPop s = some (q, t)) : MovesBlocks 1 0 s t := by
  obtain ⟨hd, ht⟩ := dinPop_some h
  exact ⟨⟨[q], hd, rfl⟩, ⟨[], by rw [ht, List.append_nil], rfl⟩⟩

theorem roundStep_moves (f : Streams) (abs msk : Option Block) (s : State) :
    MovesBlocks 0 f.out.toNat s (roundStep f abs msk s) := by
  rw [roundStep_eq]
  exact ⟨⟨[], rfl, rfl⟩, ⟨_, rfl, by cases f.out <;> rfl⟩⟩

/-- A pop is of `din` alone. -/
theorem dinPop_keepsRest {s t : State} {q : Block} (h : dinPop s = some (q, t)) : t.seq = s.seq ∧ t.resp = s.resp := by
  rw [(dinPop_some h).2]
  exact ⟨rfl, rfl⟩

/-- The blocks that each round with the streams `f` pops. -/
def Streams.pops (f : Streams) : Nat := f.abs.toNat + f.msk.toNat

/-- Rounds wait without a response, or have moved the blocks of all of them. -/
theorem iterate_moves (f : Streams) (n : Nat) (s : State) (hs : s.seq.held = none) :
    (iterate f n s).resp = s.resp ∨ MovesBlocks (n * f.pops) (n * f.out.toNat) s (iterate f n s) := by
  induction n generalizing s with
  | zero => exact .inr (by simpa [iterate] using finish_moves s)
  | succ n ih =>
    have goOn (abs msk : Option Block) {s1 : State} (hpops : MovesBlocks f.pops 0 s s1)
        (hrest : s1.seq = s.seq ∧ s1.resp = s.resp) :
        (iterate f n (roundStep f abs msk s1)).resp = s.resp ∨
          MovesBlocks ((n + 1) * f.pops) ((n + 1) * f.out.toNat) s (iterate f n (roundStep f abs msk s1)) := by
      obtain ⟨hseq, hresp⟩ := hrest
      have hround := hpops.trans (roundStep_moves f abs msk s1)
      rw [Nat.succ_mul, Nat.succ_mul, Nat.add_comm _ f.pops, Nat.add_comm _ f.out.toNat]
      rcases ih (roundStep f abs msk s1) (by rw [roundStep_seq, hseq, hs]) with hwait | hmoves
      · exact .inl (hwait.trans ((roundStep_resp f abs msk s1).trans hresp))
      · exact .inr (by simpa using hround.trans hmoves)
    rw [iterate_succ, takeAbsorb_of_none hs]
    cases habs : f.abs <;> cases hmsk : f.msk <;> simp only [Bool.false_eq_true, if_false, if_true]
    case false.false =>
      exact goOn none none (by rw [Streams.pops, habs, hmsk]; exact .refl s) ⟨rfl, rfl⟩
    case false.true =>
      split
      · exact .inl rfl
      · next m s1 hm =>
        exact goOn none (some m) (by rw [Streams.pops, habs, hmsk]; exact dinPop_moves hm) (dinPop_keepsRest hm)
    case true.false =>
      split
      · exact .inl rfl
      · next q s1 hq =>
        exact goOn (some q) none (by rw [Streams.pops, habs, hmsk]; exact dinPop_moves hq) (dinPop_keepsRest hq)
    case true.true =>
      split
      · exact .inl rfl
      · next q s1 hq =>
        obtain ⟨hseq, hresp⟩ := dinPop_keepsRest hq
        split
        · exact .inl hresp
        · next m s2 hm =>
          obtain ⟨hseq', hresp'⟩ := dinPop_keepsRest hm
          exact goOn (some q) (some m) (by rw [Streams.pops, habs, hmsk]; exact (dinPop_moves hq).trans (dinPop_moves hm))
            ⟨hseq'.trans hseq, hresp'.trans hresp⟩

theorem Counted.pops_and_pushes {s : State} {i : Instr} {f : Streams} {n : Nat} {fs : Option Bool}
    (h : Counted s i f n fs) : n * f.pops = popsOf i ∧ n * f.out.toNat = pushesOf i := by
  cases h with
  | pull => exact ⟨rfl, rfl⟩
  | push | hupdate => exact ⟨Nat.mul_one n, rfl⟩
  | pullo | ksgen => exact ⟨rfl, Nat.mul_one n⟩
  | pusho | pullx | ksxor => exact ⟨Nat.mul_one n, Nat.mul_one n⟩
  | pushx => exact ⟨Nat.mul_comm n 2, Nat.mul_one n⟩

/-- Settles O53: of the outcomes of a command, those that respond `OK` are the ones that have moved their blocks. -/
theorem blocksMovedPerCommand : Obligations.BlocksMovedPerCommand := by
  intro i s t hwf h hok
  suffices MovesBlocks (popsOf i) (pushesOf i) s t from ⟨this.popped, this.pushed⟩
  have hended : t.resp ≠ s.resp := by simp [hok]
  cases exec_cases h with
  | @counted i f n fs hc =>
    rw [Nat.mod_eq_of_lt (hc.count_lt hwf)] at hended ⊢
    obtain ⟨hpops, hpushes⟩ := hc.pops_and_pushes
    rw [← hpops, ← hpushes]
    obtain ⟨popped, pushed⟩ := (iterate_moves f n (started i n fs s) rfl).resolve_left hended
    exact ⟨popped, pushed⟩
  | clr => exact completed_moves (taken := []) rfl Engine.zero []
  | hfinal len f rest _ hd => exact completed_moves (taken := [f]) hd Engine.zero [_]
  | setkey key rest hd =>
    obtain ⟨popped, pushed⟩ := completed_moves (taken := [key]) hd s.eng []
    exact ⟨popped, pushed⟩
  | resync iv rest _ hd => exact completed_moves (taken := [iv]) hd (resyncEngine s.endian s.k iv) []
  | resyncZero => exact completed_moves (taken := []) rfl (resyncEngine s.endian s.k zeroBlock) []
  | badSize | badLength | noKey => exact absurd (List.append_cancel_left hok) (by decide)
  | hfinalWaits | setkeyWaits | resyncWaits => exact absurd rfl hended

end Sys2Proof.Machine
end

section
/-! One round word by word (40_round_engine R75, R77 to R87). -/

namespace Sys2Proof.Machine

/-! The pointer. -/

theorem nextStage_val (p : Fin 32) : (nextStage p).val = (p.val + 1) % 32 := Fin.val_add p 1

theorem roundsOver_p_val (e : Endian) (xs : List (Option Block)) (g : Engine) :
    (roundsOver e xs g).p.val = (g.p.val + xs.length) % 32 := by
  induction xs generalizing g with
  | nil => exact (Nat.mod_eq_of_lt g.p.isLt).symm
  | cons x xs ih =>
    rw [roundsOver, ih, round_fst, roundEngine_p, nextStage_val, List.length_cons]
    omega

/-- Settles O14: one step of the pointer for one round, and by induction over the rounds. -/
theorem pointerAdvancesOncePerRound : Obligations.PointerAdvancesOncePerRound :=
  ⟨fun _ _ _ _ g => nextStage_val g.p, roundsOver_p_val⟩

/-! The buffer and A, in pull and in push mode. -/

/-- Pull mode feeds `a(1)` to `a(8)` to the buffer and the stage `b4` to A (40_round_engine R79, R86). -/
theorem roundEngine_pull (e : Endian) (g : Engine) :
    roundEngine e none g =
      { a := sigma (theta (piStep (gamma g.a))) (g.b.get (stage4 g.p)) (g.b.get (stage16 g.p))
        b := bufferUpdate (feedWords g.a) g.p g.b
        p := nextStage g.p } := rfl

/-- Push mode feeds the absorbed words to both (40_round_engine R79, R85). -/
theorem roundEngine_push (e : Endian) (q : Block) (g : Engine) :
    roundEngine e (some q) g =
      { a := sigma (theta (piStep (gamma g.a))) (blockWords e q) (g.b.get (stage16 g.p))
        b := bufferUpdate (blockWords e q) g.p g.b
        p := nextStage g.p } := rfl

theorem bufferUpdate_get_stage0 (x : Stage) (p : Fin 32) (b : Vector Stage 32) (i : Fin 8) :
    ((bufferUpdate x p b).get (stage0 p)).get i = x.get i ^^^ (b.get (stage0 p)).get i := by
  rw [bufferUpdate_get, if_neg (stage0_ne_stage25 p), if_pos rfl, vector_get_ofFn]

theorem bufferUpdate_get_stage25 (x : Stage) (p : Fin 32) (b : Vector Stage 32) (j : Fin 8) :
    ((bufferUpdate x p b).get (stage25 p)).get j =
      (b.get (stage25 p)).get j ^^^ (b.get (stage0 p)).get (j + 2) := by
  rw [bufferUpdate_get, if_pos rfl, vector_get_ofFn]

/-- The stage `b25` takes the words of `b0` in both modes, whatever is injected. -/
theorem roundEngine_b_get_stage25 (e : Endian) (abs : Option Block) (g : Engine) (j : Fin 8) :
    ((roundEngine e abs g).b.get (stage25 g.p)).get j =
      (g.b.get (stage25 g.p)).get j ^^^ (g.b.get (stage0 g.p)).get (j + 2) :=
  bufferUpdate_get_stage25 _ g.p g.b j

/-- Settles O15: by source, word `i` goes to word `i + 6`, whose source `i + 6 + 2` is `i` mod 8. -/
theorem roundUpdatesBuffer : Obligations.RoundUpdatesBuffer := by
  intro e abs out msk g
  refine ⟨fun i => ?_, fun i => ?_, roundEngine_b_get_stage25 e abs g⟩
  · rw [round_fst]
    cases abs with
    | none => rw [roundEngine_pull, bufferUpdate_get_stage0, feedWords_get]
    | some q => rw [roundEngine_push, bufferUpdate_get_stage0, blockWords_get]
  · have hsource : i + 6 + 2 = i := by rw [add_assoc]; exact add_zero i
    rw [round_fst, roundEngine_b_get_stage25, hsource]

/-! Gamma and pi. -/

/-- `5 * 7 = 1` mod 17: the source of the destination of word `i` is word `i`. -/
theorem seven_mul_five_mul (i : Fin 17) : 7 * (5 * i) = i := by
  rw [← mul_assoc]
  exact one_mul i

theorem rotAmount_five_mul (i : Fin 17) : rotAmount (5 * i) = (5 * i.val % 17) * (5 * i.val % 17 + 1) / 2 % 32 := by
  rw [rotAmount, triangular, Fin.val_mul]
  rfl

/-- Settles O17: pi by source is pi by destination at `5i`. -/
theorem gammaPiBySourceIndex : Obligations.GammaPiBySourceIndex := by
  refine ⟨gamma_get, fun g i => ?_, fun g k => ?_⟩
  · rw [piStep_get, seven_mul_five_mul, rotAmount_five_mul]
  · rw [piStep_get, rotAmount, triangular]
    rfl

/-- Settles O18: the two tables by evaluation, the formula for every source. -/
theorem rotationAmounts : Obligations.RotationAmounts :=
  ⟨by decide, by decide, by decide, by decide, rotAmount_five_mul⟩

/-! Theta and sigma. -/

theorem sigma_theta_get_zero (c : Vector Word 17) (x y : Stage) :
    (sigma (theta c) x y).get 0 = c.get 0 ^^^ c.get 1 ^^^ c.get 4 ^^^ 0x00000001#32 := by
  rw [sigma_get_zero, theta_get]
  rfl

theorem sigma_theta_get_low (c : Vector Word 17) (x y : Stage) (i : Fin 8) :
    (sigma (theta c) x y).get ⟨i.val + 1, by omega⟩ =
      c.get ⟨i.val + 1, by omega⟩ ^^^ c.get ⟨(i.val + 2) % 17, by omega⟩ ^^^
        c.get ⟨(i.val + 5) % 17, by omega⟩ ^^^ x.get i := by
  rw [sigma_get_low, theta_get]
  rfl

theorem sigma_theta_get_high (c : Vector Word 17) (x y : Stage) (i : Fin 8) :
    (sigma (theta c) x y).get ⟨i.val + 9, by omega⟩ =
      c.get ⟨i.val + 9, by omega⟩ ^^^ c.get ⟨(i.val + 10) % 17, by omega⟩ ^^^
        c.get ⟨(i.val + 13) % 17, by omega⟩ ^^^ y.get i := by
  rw [sigma_get_high, theta_get]
  rfl

/-- Settles O20: words 0 and 9 to 16 are alike in both modes, words 1 to 8 take the mode's words. -/
theorem roundMixesA : Obligations.RoundMixesA := by
  intro e abs out msk g
  refine ⟨sigma_theta_get_zero _ _ _, fun i => ?_, sigma_theta_get_high _ _ _⟩
  rw [round_fst]
  cases abs with
  | none => rw [roundEngine_pull, sigma_theta_get_low]
  | some q => rw [roundEngine_push, sigma_theta_get_low, blockWords_get]

/-! The output. -/

theorem byteOf_roundOutput_raw (e : Endian) (g : Engine) (i : Fin 8) (j : Fin 4) :
    byteOf (roundOutput e none g) i j = byteOfWord e (g.a.get ⟨i.val + 9, by omega⟩) j :=
  (byteOf_wordsBlock e (outWords g.a) i j).trans (by rw [outWords_get])

theorem byteOf_roundOutput_masked (e : Endian) (m : Block) (g : Engine) (i : Fin 8) (j : Fin 4) :
    byteOf (roundOutput e (some m) g) i j =
      byteOfWord e (g.a.get ⟨i.val + 9, by omega⟩) j ^^^ byteOf m i j := by
  rw [roundOutput_masked, byteOf_xorBlock, byteOf_wordsBlock, outWords_get]

/-- Settles O21: the output is made of A before the round, whatever the round absorbs. -/
theorem roundOutputBytes : Obligations.RoundOutputBytes :=
  fun e _ g => ⟨fun _ => rfl, ⟨roundOutput e none g, rfl, byteOf_roundOutput_raw e g⟩,
    fun m => ⟨roundOutput e (some m) g, rfl, byteOf_roundOutput_masked e m g⟩⟩

end Sys2Proof.Machine
end

section
/-! Rounds from the zero state (40_round_engine R92). -/

namespace Sys2Proof.Machine

/-- The stage of eight zero words. -/
def zeroStage : Stage := Vector.replicate 8 0#32

theorem zeroEngine_stage (p : Fin 32) : Engine.zero.b.get p = zeroStage := vector_get_replicate _ p

theorem zeroStage_get (i : Fin 8) : zeroStage.get i = 0#32 := vector_get_replicate _ i

theorem feedWords_zeroEngine : feedWords Engine.zero.a = zeroStage :=
  vector_ext_get fun i => by rw [feedWords_get, zeroEngine_a_get, zeroStage_get]

theorem word_zeroBlock (e : Endian) (i : Fin 8) : word e zeroBlock i = 0#32 := by
  have hbyte (j : Fin 4) : byteOf zeroBlock i j = 0#8 := vector_get_replicate _ _
  cases e with
  | le => rw [word_le, hbyte, hbyte, hbyte, hbyte]; rfl
  | be => rw [word_be, hbyte, hbyte, hbyte, hbyte]; rfl

theorem blockWords_zeroBlock (e : Endian) : blockWords e zeroBlock = zeroStage :=
  vector_ext_get fun i => by rw [blockWords_get, word_zeroBlock, zeroStage_get]

/-- Every bit of a rotated word is a bit of the word. -/
theorem rotl_allOnes (r : Nat) : rotl 0xFFFFFFFF#32 r = 0xFFFFFFFF#32 := by
  change (BitVec.allOnes 32).rotateLeft r = BitVec.allOnes 32
  ext i hi
  rw [BitVec.getElem_rotateLeft]
  split <;> simp only [BitVec.getElem_allOnes]

/-- Gamma makes every word of the zero state all ones, which pi and theta keep. -/
theorem theta_piStep_gamma_zeroEngine (i : Fin 17) :
    (theta (piStep (gamma Engine.zero.a))).get i = 0xFFFFFFFF#32 := by
  have hgamma (j : Fin 17) : (gamma Engine.zero.a).get j = 0xFFFFFFFF#32 := by
    rw [gamma_get, zeroEngine_a_get, zeroEngine_a_get, zeroEngine_a_get]
    rfl
  have hpi (j : Fin 17) : (piStep (gamma Engine.zero.a)).get j = 0xFFFFFFFF#32 := by
    rw [piStep_get, hgamma, rotl_allOnes]
  rw [theta_get, hpi, hpi, hpi]
  rfl

/-- A buffer of zeros takes the injected words as they are, into one stage. -/
theorem bufferUpdate_zeroEngine (x : Stage) (p t : Fin 32) :
    (bufferUpdate x p Engine.zero.b).get t = if t = stage0 p then x else zeroStage := by
  apply vector_ext_get
  intro i
  by_cases h0 : t = stage0 p
  · rw [if_pos h0, h0, bufferUpdate_get_stage0, zeroEngine_b_get, BitVec.xor_zero]
  · rw [if_neg h0, zeroStage_get]
    by_cases h25 : t = stage25 p
    · rw [h25, bufferUpdate_get_stage25, zeroEngine_b_get, zeroEngine_b_get, BitVec.xor_zero]
    · rw [bufferUpdate_get, if_neg h25, if_neg h0, zeroEngine_b_get]

theorem bufferUpdate_zeroEngine_zeroStage (p : Fin 32) : bufferUpdate zeroStage p Engine.zero.b = Engine.zero.b :=
  vector_ext_get fun t => by rw [bufferUpdate_zeroEngine, ite_self, zeroEngine_stage]

/-- Stages of zeros leave A to the constant, which is for word 0 only. -/
theorem sigma_zeroStage_get {i : Fin 17} (th : Vector Word 17) (hi : i ≠ 0) :
    (sigma th zeroStage zeroStage).get i = th.get i := by
  have hne : i.val ≠ 0 := fun h => hi (Fin.ext h)
  rw [sigma, vector_get_ofFn, dif_neg hne]
  split <;> rw [zeroStage_get, BitVec.xor_zero]

theorem roundEngine_pull_zeroEngine (e : Endian) :
    roundEngine e none Engine.zero =
      { a := sigma (theta (piStep (gamma Engine.zero.a))) zeroStage zeroStage
        b := Engine.zero.b
        p := 1 } := by
  rw [roundEngine_pull, zeroEngine_stage, zeroEngine_stage, feedWords_zeroEngine, bufferUpdate_zeroEngine_zeroStage]
  rfl

/-- The absorbed words of the zero block are those that a pull feeds from the zero state. -/
theorem roundEngine_push_zeroBlock (e : Endian) :
    roundEngine e (some zeroBlock) Engine.zero = roundEngine e none Engine.zero := by
  rw [roundEngine_push, roundEngine_pull, blockWords_zeroBlock, feedWords_zeroEngine, zeroEngine_stage (stage4 _)]

theorem roundEngine_push_zeroEngine_a_get (e : Endian) (q : Block) (i : Fin 8) :
    (roundEngine e (some q) Engine.zero).a.get ⟨i.val + 1, by omega⟩ = 0xFFFFFFFF#32 ^^^ word e q i := by
  rw [roundEngine_push, sigma_get_low, theta_piStep_gamma_zeroEngine, blockWords_get]

theorem roundEngine_push_zeroEngine_b_get (e : Endian) (q : Block) (i : Fin 8) :
    ((roundEngine e (some q) Engine.zero).b.get 1).get i = word e q i := by
  have hstage : (1 : Fin 32) = stage0 Engine.zero.p := rfl
  rw [roundEngine_push, bufferUpdate_zeroEngine, if_pos hstage, blockWords_get]

/-- Settles O24: a blank pull, a push of zeros, which is the same, and a push of any block. -/
theorem roundsFromZeroState : Obligations.RoundsFromZeroState := by
  refine ⟨fun e => ?_, roundEngine_push_zeroBlock,
    fun e q i => ⟨roundEngine_push_zeroEngine_a_get e q i, roundEngine_push_zeroEngine_b_get e q i⟩⟩
  rw [round_fst, roundEngine_pull_zeroEngine]
  refine ⟨?_, fun i hi => ?_, rfl, rfl⟩
  · rw [sigma_get_zero, theta_piStep_gamma_zeroEngine]
    rfl
  · rw [sigma_zeroStage_get _ hi, theta_piStep_gamma_zeroEngine]

end Sys2Proof.Machine
end

section
/-! Steps by the branch they take (41_core_commands R93): an idle block's next word, placed or queued. -/

namespace Sys2Proof.Machine

/-- Settles O8: the three branches of a step in which no reset and no illegal word comes. -/
theorem stepRunsDecodedCommand : Obligations.StepRunsDecodedCommand :=
  ⟨fun _ _ _ _ => step_of_command, fun _ _ => step_of_busy, fun _ => step_of_empty⟩

theorem decode_of_decodeTableWord {nbits w : Nat} {i : Instr} (h : decodeTableWord nbits w = some i) :
    decode (BitVec.ofNat 32 (w % 2 ^ nbits)) = .ok i := by
  unfold decodeTableWord at h
  cases hw : decode (BitVec.ofNat 32 (w % 2 ^ nbits)) with
  | error e => rw [hw] at h; cases h
  | ok j => rw [hw] at h; cases h; rfl

/-- Settles O9: the placed word is the head of `cmd` of an idle block, and taking it leaves `cmd` as it was. -/
theorem placedCommandRunsNext : Obligations.PlacedCommandRunsNext :=
  fun _ _ _ _ h => step_of_command rfl rfl rfl (decode_of_decodeTableWord h)

end Sys2Proof.Machine
end

section
/-! The core commands with their blocks at hand (41_core_commands R94 to R100). Which rounds a counted command runs depends on
its streams only, so there is one closed form for each way a round takes blocks; HUPDATE, KSGEN and KSXOR have it as well. -/

namespace Sys2Proof.Machine

/-- Settles O25: Zeroise, then the response. -/
theorem clrReturnsToZeroState : Obligations.ClrReturnsToZeroState := exec_clr

section
variable {s : State} {i : Instr} {f : Streams} {fs : Option Bool}

/-- Rounds that take no block. -/
theorem Counted.exec_pullRounds {n : Nat} (h : Counted s i f n fs) (ha : f.abs = false) (hm : f.msk = false)
    (hn : n < 65536) : exec i s = .next (completed s (blankRounds s.endian n s.eng) s.din
      (if f.out then fullEntries (keystream s.endian n s.eng) else [])) := by
  rw [exec_counted h, Nat.mod_eq_of_lt hn, iterate_pull f ha hm]
  rfl

/-- Rounds that take an absorb block each. -/
theorem Counted.exec_pushRounds {qs rest : List Block} (h : Counted s i f qs.length fs) (ha : f.abs = true)
    (hm : f.msk = false) (hn : qs.length < 65536) (hd : s.din = qs ++ rest) :
    exec i s = .next (completed s (pushAll s.endian qs s.eng) rest
      (if f.out then fullEntries (pushOutputs s.endian qs s.eng) else [])) := by
  rw [exec_counted h, Nat.mod_eq_of_lt hn]
  exact congrArg _ (iterate_push f ha hm 0 qs rest (started i _ fs s) rfl hd)

/-- Rounds that take a mask block each. -/
theorem Counted.exec_maskedPullRounds {ms rest : List Block} (h : Counted s i f ms.length fs) (ha : f.abs = false)
    (ho : f.out = true) (hm : f.msk = true) (hn : ms.length < 65536) (hd : s.din = ms ++ rest) :
    exec i s = .next (completed s (blankRounds s.endian ms.length s.eng) rest
      (fullEntries (List.zipWith xorBlock (keystream s.endian ms.length s.eng) ms))) := by
  rw [exec_counted h, Nat.mod_eq_of_lt hn]
  exact congrArg _ (iterate_mask f ha ho hm 0 ms rest (started i _ fs s) hd)

/-- Rounds that take an absorb block and then a mask block each. -/
theorem Counted.exec_maskedPushRounds {qms : List (Block × Block)} {rest : List Block} (h : Counted s i f qms.length fs)
    (ha : f.abs = true) (ho : f.out = true) (hm : f.msk = true) (hn : qms.length < 65536)
    (hd : s.din = interleave qms ++ rest) :
    exec i s = .next (completed s (pushAll s.endian (qms.map Prod.fst) s.eng) rest (fullEntries
      (List.zipWith xorBlock (pushOutputs s.endian (qms.map Prod.fst) s.eng) (qms.map Prod.snd)))) := by
  rw [exec_counted h, Nat.mod_eq_of_lt hn]
  exact congrArg _ (iterate_push_mask f ha ho hm 0 qms rest (started i _ fs s) rfl hd)

end

/-- Settles O26: pull rounds without output. -/
theorem pullRunsBlankRounds : Obligations.PullRunsBlankRounds :=
  fun n _ hn => (Counted.pull n).exec_pullRounds rfl rfl hn

/-- Settles O27: push rounds without output. -/
theorem pushAbsorbsBlocksInOrder : Obligations.PushAbsorbsBlocksInOrder :=
  fun qs _ _ hn hd => (Counted.push qs.length).exec_pushRounds rfl rfl hn hd

/-- Settles O28: pull rounds with output. -/
theorem pulloEmitsRawOutput : Obligations.PulloEmitsRawOutput :=
  fun n _ hn => (Counted.pullo n).exec_pullRounds rfl rfl hn

/-- Settles O29: masked pull rounds. -/
theorem pullxEmitsMaskedOutput : Obligations.PullxEmitsMaskedOutput :=
  fun ms _ _ hn hd => (Counted.pullx ms.length).exec_maskedPullRounds rfl rfl rfl hn hd

/-- Settles O30: push rounds with output. -/
theorem pushoAbsorbsAndEmits : Obligations.PushoAbsorbsAndEmits :=
  fun qs _ _ hn hd => (Counted.pusho qs.length).exec_pushRounds rfl rfl hn hd

/-- Settles O31: masked push rounds. -/
theorem pushxAbsorbsAndMasks : Obligations.PushxAbsorbsAndMasks :=
  fun qms _ _ hn hd => (Counted.pushx qms.length).exec_maskedPushRounds rfl rfl rfl hn hd

end Sys2Proof.Machine
end

section
/-! The nine counted commands as functions of `COUNT` (41_core_commands R101, R102). What rounds do with engine, `din` and `dout`
depends on the sequencer by the held block only, and on `resp` not at all; so a run of `n + m` rounds is a run of `n` and a run
of `m`, whatever was latched and answered in between. -/

namespace Sys2Proof.Machine

/-- The commands with a `COUNT`. -/
def countedCommands : List (Nat → Instr) :=
  [.pull, .push, .pullo, .pusho, .pullx, .pushx, .hupdate, .ksgen, .ksxor]

/-- The streams of a counted command are those of its mnemonic. -/
theorem streams_of_countedCommand {X : Nat → Instr} (hX : X ∈ countedCommands) :
    ∃ f, ∀ n s, ∃ fs, Counted s (X n) f n fs := by
  simp only [countedCommands, List.mem_cons, List.not_mem_nil, or_false] at hX
  rcases hX with rfl | rfl | rfl | rfl | rfl | rfl | rfl | rfl | rfl
  · exact ⟨_, fun n _ => ⟨_, .pull n⟩⟩
  · exact ⟨_, fun n _ => ⟨_, .push n⟩⟩
  · exact ⟨_, fun n _ => ⟨_, .pullo n⟩⟩
  · exact ⟨_, fun n _ => ⟨_, .pusho n⟩⟩
  · exact ⟨_, fun n _ => ⟨_, .pullx n⟩⟩
  · exact ⟨_, fun n _ => ⟨_, .pushx n⟩⟩
  · exact ⟨_, fun n _ => ⟨_, .hupdate n⟩⟩
  · exact ⟨_, fun n _ => ⟨_, .ksgen n⟩⟩
  · exact ⟨_, fun n _ => ⟨_, .ksxor n⟩⟩

/-! No rounds. -/

theorem Counted.wellFormed {s : State} {i : Instr} {f : Streams} {n : Nat} {fs : Option Bool} (h : Counted s i f n fs)
    (hn : n < 65536) : WellFormed i = true := by
  cases h <;> exact decide_eq_true hn

theorem Counted.exec_zero {s : State} {i : Instr} {f : Streams} {fs : Option Bool} (h : Counted s i f 0 fs) :
    exec i s = .next { s with resp := s.resp ++ [0#3], seq := Sequencer.idle } := exec_counted h

/-- Settles O32: `COUNT = 0` is within its field, so the word decodes, and a run of no rounds is the response alone. -/
theorem countZeroOnlyResponds : Obligations.CountZeroOnlyResponds := by
  intro i hi
  obtain ⟨X, hX, rfl⟩ : ∃ X ∈ countedCommands, X 0 = i := List.mem_map.1 hi
  obtain ⟨f, hf⟩ := streams_of_countedCommand hX
  refine ⟨?_, fun s => ?_⟩
  · obtain ⟨fs, hc⟩ := hf 0 State.reset
    exact decodeOfEncode _ (hc.wellFormed (by decide))
  · obtain ⟨fs, hc⟩ := hf 0 s
    exact hc.exec_zero

/-! A run, and a run that follows it. -/

/-- `s` under the sequencer `q`, with the responses `codes`. -/
def reseat (q : Sequencer) (codes : List (BitVec 3)) (s : State) : State := { s with seq := q, resp := codes }

/-- A counted command is its rounds under the sequencer that latched it. -/
theorem Counted.exec_reseat {s t : State} {i : Instr} {f : Streams} {n : Nat} {fs : Option Bool} (h : Counted s i f n fs)
    (hn : n < 65536) (ht : exec i s = .next t) :
    ∃ q : Sequencer, q.held = none ∧ q.phase = .busy i ∧ t = iterate f n (reseat q s.resp s) := by
  rw [exec_counted h, Nat.mod_eq_of_lt hn] at ht
  exact ⟨(started i n fs s).seq, rfl, rfl, (Host.Outcome.next.inj ht).symm⟩

theorem roundStep_reseat (f : Streams) (abs msk : Option Block) (q : Sequencer) (codes : List (BitVec 3)) (s : State) :
    roundStep f abs msk (reseat q codes s) = reseat q codes (roundStep f abs msk s) := by
  rw [roundStep_eq, roundStep_eq]
  rfl

/-- The first round of a run, whatever the sequencer has latched: it is carried out and leaves `u`, or it waits in `u`. -/
theorem iterate_succ_reseat (f : Streams) (s : State) :
    (∃ u, ∀ n q codes, q.held = none → iterate f (n + 1) (reseat q codes s) = iterate f n (reseat q codes u)) ∨
    (∃ u held, ∀ n q codes, q.held = none →
      iterate f (n + 1) (reseat q codes s) = waitBlock (n + 1) held (reseat q codes u)) := by
  cases ha : f.abs <;> cases hm : f.msk
  case false.false =>
    exact .inl ⟨roundStep f none none s, fun n q codes _ => by simp [iterate_succ, ha, hm, roundStep_reseat]⟩
  case false.true =>
    cases hd : s.din with
    | nil => exact .inr ⟨s, none, fun n q codes _ => by simp [iterate_succ, ha, hm, dinPop, reseat, hd]⟩
    | cons m rest =>
      refine .inl ⟨roundStep f none (some m) { s with din := rest }, fun n q codes _ => ?_⟩
      rw [iterate_succ, dinPop_of_cons (s := reseat q codes s) hd, ← roundStep_reseat]
      simp [ha, hm, reseat]
  case true.false =>
    cases hd : s.din with
    | nil => exact .inr ⟨s, none, fun n q codes hq => by simp [iterate_succ, ha, takeAbsorb, dinPop, reseat, hd, hq]⟩
    | cons b rest =>
      refine .inl ⟨roundStep f (some b) none { s with din := rest }, fun n q codes hq => ?_⟩
      rw [iterate_succ, takeAbsorb_of_none (s := reseat q codes s) hq, dinPop_of_cons (s := reseat q codes s) hd,
        ← roundStep_reseat]
      simp [ha, hm, reseat]
  case true.true =>
    match hd : s.din with
    | [] => exact .inr ⟨s, none, fun n q codes hq => by simp [iterate_succ, ha, takeAbsorb, dinPop, reseat, hd, hq]⟩
    | [b] =>
      exact .inr ⟨{ s with din := [] }, some b, fun n q codes hq => by
        simp [iterate_succ, ha, hm, takeAbsorb, dinPop, reseat, hd, hq]⟩
    | b :: m :: rest =>
      refine .inl ⟨roundStep f (some b) (some m) { s with din := rest }, fun n q codes hq => ?_⟩
      rw [← roundStep_reseat]
      simp [iterate_succ, ha, hm, takeAbsorb, dinPop, reseat, hd, hq]

/-- `n` rounds, with `m` to follow: they are carried out and leave `u`, or one of them waits in `u`. -/
theorem iterate_add_reseat (f : Streams) (n : Nat) (s : State) :
    (∃ u, ∀ m q codes, q.held = none → iterate f (n + m) (reseat q codes s) = iterate f m (reseat q codes u)) ∨
    (∃ u r held, ∀ m q codes, q.held = none →
      iterate f (n + m) (reseat q codes s) = waitBlock (r + m) held (reseat q codes u)) := by
  induction n generalizing s with
  | zero => exact .inl ⟨s, fun m q codes _ => by rw [Nat.zero_add]⟩
  | succ n ih =>
    rcases iterate_succ_reseat f s with ⟨s1, hround⟩ | ⟨u, held, hwait⟩
    · rcases ih s1 with ⟨u, hrun⟩ | ⟨u, r, held, hwait⟩
      · exact .inl ⟨u, fun m q codes hq => by rw [Nat.add_right_comm, hround _ q codes hq, hrun m q codes hq]⟩
      · exact .inr ⟨u, r, held, fun m q codes hq => by
          rw [Nat.add_right_comm, hround _ q codes hq, hwait m q codes hq]⟩
    · exact .inr ⟨u, n + 1, held, fun m q codes hq => by rw [Nat.add_right_comm, hwait _ q codes hq]⟩

/-- `n` rounds end under every sequencer and leave `u`, or wait under every sequencer in `u`. -/
theorem iterate_reseat (f : Streams) (n : Nat) (s : State) :
    (∃ u, ∀ q codes, q.held = none → iterate f n (reseat q codes s) = finish (reseat q codes u)) ∨
    (∃ u r held, ∀ q codes, q.held = none → iterate f n (reseat q codes s) = waitBlock r held (reseat q codes u)) :=
  (iterate_add_reseat f n s).imp (fun ⟨u, h⟩ => ⟨u, h 0⟩) fun ⟨u, r, held, h⟩ => ⟨u, r, held, h 0⟩

/-- Settles O33: where the first `n` rounds end, `X m` after them and the last `m` rounds of `X (n+m)` start from the same
engine and ports, and so end or wait alike. -/
theorem countedCommandsSplit : Obligations.CountedCommandsSplit := by
  intro X hX n m s t u v hnm ht hu hidle hv
  obtain ⟨f, hf⟩ := streams_of_countedCommand hX
  obtain ⟨_, hct⟩ := hf (n + m) s
  obtain ⟨_, hcu⟩ := hf n s
  obtain ⟨_, hcv⟩ := hf m u
  obtain ⟨qt, hqt, -, rfl⟩ := hct.exec_reseat (by omega) ht
  obtain ⟨qu, hqu, hbu, rfl⟩ := hcu.exec_reseat (by omega) hu
  obtain ⟨qv, hqv, hbv, rfl⟩ := hcv.exec_reseat (by omega) hv
  rcases iterate_add_reseat f n s with ⟨a, hrun⟩ | ⟨a, r, held, hwait⟩
  · have hua : iterate f n (reseat qu s.resp s) = finish (reseat qu s.resp a) := hrun 0 qu s.resp hqu
    have hva : reseat qv (iterate f n (reseat qu s.resp s)).resp (iterate f n (reseat qu s.resp s)) =
        reseat qv (s.resp ++ [0#3]) a := by rw [hua]; rfl
    rw [hrun m qt s.resp hqt, hva]
    rcases iterate_reseat f m a with ⟨b, hends⟩ | ⟨b, r, held, hwaits⟩
    · rw [hends qt s.resp hqt, hends qv (s.resp ++ [0#3]) hqv]
      exact ⟨rfl, rfl, rfl, fun _ => ⟨rfl, List.append_assoc _ _ _⟩⟩
    · rw [hwaits qt s.resp hqt, hwaits qv (s.resp ++ [0#3]) hqv]
      exact ⟨rfl, rfl, rfl, fun hended => absurd (hbv.symm.trans hended) Phase.noConfusion⟩
  · have hua : iterate f n (reseat qu s.resp s) = waitBlock r held (reseat qu s.resp a) := hwait 0 qu s.resp hqu
    rw [hua] at hidle
    exact absurd (hbu.symm.trans hidle) Phase.noConfusion

end Sys2Proof.Machine
end

section
/-! One response per command (41_core_commands R93, 60_exceptions R137). -/

namespace Sys2Proof.Machine

/-- Settles O52: rounds end with `OK` or wait; every other outcome of a command answers a code or waits for its block. -/
theorem oneResponsePerCommand : Obligations.OneResponsePerCommand := by
  intro i s t _ h
  cases exec_cases h with
  | @counted i f n fs hc =>
    obtain ⟨-, -, -, -, -, -, -, -, -, hend⟩ := iterate_spec f (n % 65536) (started i n fs s) (.inl rfl)
    rcases hend with ⟨hseq, hresp⟩ | ⟨hresp, hdin, -, r, held, -, -, hseq, -⟩
    · exact .inl ⟨hseq, 0#3, Nat.zero_le 4, hresp⟩
    · exact .inr ⟨by rw [hseq]; rfl, hresp, hdin⟩
  | clr | hfinal | setkey | resync | resyncZero => exact .inl ⟨rfl, 0#3, Nat.zero_le 4, rfl⟩
  | badSize => exact .inl ⟨rfl, _, responseCode_le .errTrunc, rfl⟩
  | badLength => exact .inl ⟨rfl, _, responseCode_le .errKeylen, rfl⟩
  | noKey => exact .inl ⟨rfl, _, responseCode_le .errNokey, rfl⟩
  | hfinalWaits _ _ hd | setkeyWaits hd | resyncWaits _ hd => exact .inr ⟨rfl, rfl, hd⟩

end Sys2Proof.Machine
end

section
/-! The hash adapter (42_hash_adapter R106 to R114). HUPDATE is push rounds, and an adapter command that runs the rounds of a
core command ends or waits as that one does; HFINAL's one entry is the truncated output of a last pull round. -/

namespace Sys2Proof.Machine

/-! HUPDATE, and the adapter commands beside the core commands. -/

/-- Settles O34: push rounds without output. -/
theorem hupdateAbsorbsMessageBlocks : Obligations.HupdateAbsorbsMessageBlocks :=
  fun qs _ _ hn hd => (Counted.hupdate qs.length).exec_pushRounds rfl rfl hn hd

/-- A command that waits stays latched, so the sequencer is not idle. -/
theorem waitBlock_seq_ne_idle {s : State} {i : Instr} (r : Nat) (held : Option Block) (h : s.seq.phase = .busy i) :
    (waitBlock r held s).seq ≠ Sequencer.idle := by
  intro hidle
  have hphase : (waitBlock r held s).seq.phase = .idle := by rw [hidle]; rfl
  exact Phase.noConfusion (h.symm.trans hphase)

/-- Two commands that run the same rounds from one state differ in what the sequencer holds at most, and end together. -/
theorem Counted.exec_sameStreams {s t u : State} {i j : Instr} {f : Streams} {n : Nat} {fi fj : Option Bool}
    (hi : Counted s i f n fi) (hj : Counted s j f n fj) (hn : n < 65536) (ht : exec i s = .next t)
    (hu : exec j s = .next u) : t = { u with seq := t.seq } ∧ (t.seq = Sequencer.idle ↔ u.seq = Sequencer.idle) := by
  obtain ⟨qt, hqt, hbt, rfl⟩ := hi.exec_reseat hn ht
  obtain ⟨qu, hqu, hbu, rfl⟩ := hj.exec_reseat hn hu
  rcases iterate_reseat f n s with ⟨a, hends⟩ | ⟨a, r, held, hwaits⟩
  · rw [hends qt s.resp hqt, hends qu s.resp hqu]
    exact ⟨rfl, Iff.rfl⟩
  · rw [hwaits qt s.resp hqt, hwaits qu s.resp hqu]
    exact ⟨rfl, iff_of_false (waitBlock_seq_ne_idle r held hbt) (waitBlock_seq_ne_idle r held hbu)⟩

/-- Settles O35: the commands of each pair have the same streams. -/
theorem adapterCommandsEqualCoreCommands : Obligations.AdapterCommandsEqualCoreCommands := by
  intro P hP n s t u hn ht hu
  simp only [List.mem_cons, List.not_mem_nil, or_false] at hP
  rcases hP with rfl | rfl | rfl
  · exact (Counted.hupdate n).exec_sameStreams (.push n) hn ht hu
  · exact (Counted.ksgen n).exec_sameStreams (.pullo n) hn ht hu
  · exact (Counted.ksxor n).exec_sameStreams (.pullx n) hn ht hu

/-! HFINAL. -/

/-- The digest is what one more pull round emits after the padded block and the mixing (R109, R111, R112). -/
theorem round_snd_eq_digest (e : Endian) (pad : Block) (g : Engine) :
    (round e none true none (blankRounds e 32 (round e (some pad) false none g).1)).2 = some (digest e pad g) := rfl

/-- Settles O37: the entry is the truncated digest. -/
theorem hfinalProducesDigest : Obligations.HfinalProducesDigest :=
  fun dsize len f _ s h1 h32 _ hd =>
    ⟨truncateBlock dsize (digest s.endian (padBlock len f) s.eng),
      exec_hfinal_done len s ((dsizeLegal_iff dsize).2 ⟨h1, h32⟩) hd,
      digest s.endian (padBlock len f) s.eng, round_snd_eq_digest _ _ _, truncateBlock_get dsize _⟩

/-- Settles O39: only the outcome that took its block answers `OK`, and only the refusal answers `ERR_TRUNC`. -/
theorem hfinalLeavesZeroState : Obligations.HfinalLeavesZeroState := by
  intro dsize len s t h
  cases exec_cases h with
  | counted hc => cases hc
  | badSize => exact ⟨fun hok => by simp at hok, fun _ => rfl⟩
  | hfinalWaits => exact ⟨fun hok => by simp at hok, fun herr => by simp at herr⟩
  | hfinal => exact ⟨fun _ => ⟨zeroEngine_a_get, zeroEngine_b_get, rfl, rfl, rfl⟩, fun herr => by simp at herr⟩

/-! The padded block (R110). -/

/-- Word 0 of a block padded from `LEN = 0` is the terminator and three zero bytes. -/
theorem byteOf_padBlock_zero (f : Block) (j : Fin 4) :
    byteOf (padBlock 0 f) 0 j = if j = 0 then padByte else 0#8 := by
  have hk : 4 * (0 : Fin 8).val + j.val = j.val := Nat.zero_add j.val
  simp only [byteOf, padBlock_get, hk, Nat.not_lt_zero, if_false, Fin.val_eq_zero_iff]

/-- Settles O36: by the three ranges of a byte's index; the first word by its four bytes. -/
theorem paddingOfFinalBlock : Obligations.PaddingOfFinalBlock := by
  refine ⟨fun len f k _ => ⟨fun hk => ?_, fun hk => ?_, fun hk => ?_⟩, fun f => ⟨?_, ?_⟩⟩
  · rw [padBlock_get, if_pos hk]
  · rw [padBlock_get, if_neg (by omega), if_pos hk, padByte]
  · rw [padBlock_get, if_neg (by omega), if_neg (by omega)]
  · simp only [word_le, byteOf_padBlock_zero]
    decide
  · simp only [word_be, byteOf_padBlock_zero]
    decide

end Sys2Proof.Machine
end

section
/-! The cipher adapter (43_cipher_adapter R116 to R128). KSGEN and KSXOR are pull rounds; the engine after RESYNC is a
function of the byte order, the key and the IV alone, and the keystream is one of that engine; so both runs of a cipher
exchange mask with the same blocks. Only SETKEY 32 and reset write the key register. -/

namespace Sys2Proof.Machine

/-! SETKEY. -/

/-- Settles O40: the block becomes the key, and the engine stays. -/
theorem setkeyStoresKey : Obligations.SetkeyStoresKey := fun _ _ s hd => exec_setkey_done s hd

/-! RESYNC. -/

/-- Pushing the key and the IV, then mixing (R118). -/
theorem resyncEngine_eq_blankRounds (e : Endian) (key iv : Block) :
    resyncEngine e key iv = blankRounds e 32 (pushAll e [key, iv] Engine.zero) := rfl

/-- One step of the pointer each for the key and the IV; the 32 mixing rounds bring it back to where it was (R119). -/
theorem resyncEngine_p_val (e : Endian) (key iv : Block) : (resyncEngine e key iv).p.val = 2 := by
  rw [resyncEngine_eq_blankRounds, blankRounds_eq_roundsOver, pushAll, roundsOver_p_val, roundsOver_p_val,
    List.length_replicate]
  change ((0 + 2) % 32 + 32) % 32 = 2
  decide

/-- Settles O41: the two outcomes of a RESYNC that does its work; no other one answers `OK`. -/
theorem resyncLoadsKeyAndIv : Obligations.ResyncLoadsKeyAndIv := by
  refine ⟨fun iv rest s hk hd => exec_resync_iv s hk hd, fun s hk => exec_resync_no_iv s hk, fun ivp s t h hok => ?_⟩
  cases exec_cases h with
  | counted hc => cases hc
  | noKey => simp at hok
  | resyncWaits => simp at hok
  | resync => exact resyncEngine_p_val _ _ _
  | resyncZero => exact resyncEngine_p_val _ _ _

/-! The keystream commands. -/

/-- Settles O42: pull rounds with output. -/
theorem ksgenEmitsKeystream : Obligations.KsgenEmitsKeystream :=
  fun n _ hn => (Counted.ksgen n).exec_pullRounds rfl rfl hn

/-- Settles O43: masked pull rounds. -/
theorem ksxorXorsKeystreamOntoData : Obligations.KsxorXorsKeystreamOntoData :=
  fun ms _ _ hn hd => (Counted.ksxor ms.length).exec_maskedPullRounds rfl rfl rfl hn hd

/-! Encryption is decryption (R124). -/

/-- What `RESYNC; KSXOR` makes of the blocks `ms`: each is masked with its block of the keystream. -/
def cipherBlocks (e : Endian) (key iv : Block) (ms : List Block) : List Block :=
  List.zipWith xorBlock (keystream e ms.length (resyncEngine e key iv)) ms

theorem cipherBlocks_length (e : Endian) (key iv : Block) (ms : List Block) :
    (cipherBlocks e key iv ms).length = ms.length := by
  rw [cipherBlocks, List.length_zipWith, keystream_length, Nat.min_self]

/-- Masking a list of blocks twice with the same blocks gives it back. -/
theorem zipWith_xorBlock_cancel (ks ms : List Block) (h : ks.length = ms.length) :
    List.zipWith xorBlock ks (List.zipWith xorBlock ks ms) = ms := by
  induction ms generalizing ks with
  | nil => rw [List.zipWith_nil_right, List.zipWith_nil_right]
  | cons m ms ih =>
    obtain ⟨k, ks, rfl⟩ := List.exists_cons_of_length_eq_add_one h
    rw [List.zipWith_cons_cons, List.zipWith_cons_cons, xorBlock_cancel, ih ks (Nat.succ.inj h)]

/-- The keystream depends on the number of blocks and not on the blocks, so masking is its own inverse. -/
theorem cipherBlocks_cipherBlocks (e : Endian) (key iv : Block) (ms : List Block) :
    cipherBlocks e key iv (cipherBlocks e key iv ms) = ms := by
  rw [cipherBlocks, cipherBlocks_length]
  exact zipWith_xorBlock_cancel _ ms (keystream_length e _ _)

/-- `RESYNC 1; KSXOR n` on any state with a key takes the IV and the blocks, and appends the masked blocks. -/
theorem exec_resync_ksxor {iv : Block} {ms rest : List Block} {s : State} (hn : ms.length < 65536) (hk : s.kv = true)
    (hd : s.din = iv :: (ms ++ rest)) :
    ∃ s1 s2, exec (.resync true) s = .next s1 ∧ exec (.ksxor ms.length) s1 = .next s2 ∧
      s2.dout = s.dout ++ fullEntries (cipherBlocks s.endian s.k iv ms) := by
  refine ⟨_, _, exec_resync_iv s hk hd, ksxorXorsKeystreamOntoData ms rest _ hn rfl, ?_⟩
  rw [completed_dout, completed_dout, completed_endian, completed_eng, List.append_nil, cipherBlocks]

/-- Settles O44: the second run masks the masked blocks with the keystream of the first. -/
theorem cipherRoundTrip : Obligations.CipherRoundTrip := by
  intro iv ms rest s hn hk hd
  obtain ⟨s1, s2, hresync, hksxor, hdout⟩ := exec_resync_ksxor hn hk hd
  have hlen := cipherBlocks_length s.endian s.k iv ms
  refine ⟨s1, s2, cipherBlocks s.endian s.k iv ms, hresync, hksxor, hlen, hdout, ?_⟩
  intro u rest' huk hkey hendian hud
  have hback := exec_resync_ksxor (hlen.trans_lt hn) huk hud
  rwa [hlen, hkey, hendian, cipherBlocks_cipherBlocks] at hback

/-! Who writes the key register (R128). -/

/-- A latched command that goes on keeps the key unless it is SETKEY. -/
theorem resume_keepsKey {i : Instr} (hi : ∀ klen, i ≠ .setkey klen) (s : State) : KeepsInputsAndKey s (resume i s) := by
  cases i with
  | clr => exact ⟨⟨rfl, rfl, rfl, rfl, rfl⟩, rfl, rfl⟩
  | hfinal dsize len => exact hfinalBody_keeps dsize len s
  | setkey klen => exact absurd rfl (hi klen)
  | resync ivp => exact resyncBody_keeps ivp s
  | pull | push | pullo | pusho | pullx | pushx | ksgen | ksxor | hupdate => exact iterate_keeps _ s.seq.rc.toNat s

/-- A new command keeps the key unless it is SETKEY 32: a SETKEY of another length is refused. -/
theorem exec_keepsKey_of_ne_setkey32 {i : Instr} {s t : State} (hi : i ≠ .setkey 32) (h : exec i s = .next t) :
    KeepsInputsAndKey s t := by
  by_cases hsetkey : ∃ klen, i = .setkey klen
  · obtain ⟨klen, rfl⟩ := hsetkey
    cases exec_cases h with
    | counted hc => cases hc
    | badLength => exact errored_keeps s _
    | setkeyWaits | setkey => exact absurd rfl hi
  · exact exec_keepsKey (fun klen hklen => hsetkey ⟨klen, hklen⟩) h

/-- Settles O54: by the outcomes of a step; the key stays where neither reset nor SETKEY acts. -/
theorem onlySetkeyAndResetChangeKey : Obligations.OnlySetkeyAndResetChangeKey := by
  intro s t h hchanged
  have notKept : ¬ (t.k = s.k ∧ t.kv = s.kv) := not_and_or.2 hchanged
  cases step_cases h with
  | reset hr => exact .inl hr
  | resumed i _ hp =>
    refine .inr (.inl (by_contra fun hi => ?_))
    have keeps := resume_keepsKey (fun klen hklen => hi ⟨klen, hp.trans (congrArg _ hklen)⟩) s
    exact notKept ⟨keeps.k, keeps.kv⟩
  | stutter => exact absurd ⟨rfl, rfl⟩ notKept
  | illegal => exact absurd ⟨rfl, rfl⟩ notKept
  | command w rest i _ _ hp hc hw hexec =>
    refine .inr (.inr ⟨hp, w, rest, hc, by_contra fun hi => ?_⟩)
    have keeps := exec_keepsKey_of_ne_setkey32 (fun hi32 => hi (hw.trans (congrArg _ hi32))) hexec
    exact notKept ⟨keeps.k, keeps.kv⟩

end Sys2Proof.Machine
end

section
/-! The fast path's gate (10_state R27, 44_fast_path R131): blanking out `HAS_FASTPATH`, `fast_avail` and the latched sample before
a step gives what blanking them out after it gives, so nothing of the next state hangs on them. -/

namespace Sys2Proof.Machine

/-! The shared operations on a blanked state. -/

theorem dinPop_blankGate (s : State) : dinPop (blankGate s) = (dinPop s).map (Prod.map id blankGate) := by
  cases hd : s.din with
  | nil => rw [(dinPop_eq_none s).2 hd, (dinPop_eq_none (blankGate s)).2 hd]; rfl
  | cons q rest => rw [dinPop_of_cons hd, dinPop_of_cons (s := blankGate s) hd]; rfl

theorem takeAbsorb_blankGate (s : State) :
    takeAbsorb (blankGate s) = (takeAbsorb s).map (Prod.map id blankGate) := by
  cases hh : s.seq.held with
  | none => rw [takeAbsorb_of_none hh, takeAbsorb_of_none (s := blankGate s) hh, dinPop_blankGate]
  | some q => rw [takeAbsorb_of_some hh, takeAbsorb_of_some (s := blankGate s) hh]; rfl

theorem roundStep_blankGate (f : Streams) (abs msk : Option Block) (s : State) :
    roundStep f abs msk (blankGate s) = blankGate (roundStep f abs msk s) := by
  rw [roundStep_eq, roundStep_eq]
  rfl

/-! Rounds, commands and steps on a blanked state. -/

/-- Rounds find the same blocks and emit the same output; where they wait, the sample is kept but not read. -/
theorem iterate_blankGate (f : Streams) (n : Nat) (s : State) :
    iterate f n (blankGate s) = blankGate (iterate f n s) := by
  induction n generalizing s with
  | zero => rfl
  | succ n ih =>
    have goOn (abs msk : Option Block) (s1 : State) : iterate f n (roundStep f abs msk (blankGate s1)) =
        blankGate (iterate f n (roundStep f abs msk s1)) := by rw [roundStep_blankGate, ih]
    rw [iterate_succ, iterate_succ, takeAbsorb_blankGate, dinPop_blankGate]
    cases f.abs with
    | false =>
      cases f.msk with
      | false => exact goOn none none s
      | true =>
        cases dinPop s with
        | none => rfl
        | some x => exact goOn none (some x.1) x.2
    | true =>
      cases takeAbsorb s with
      | none => rfl
      | some x =>
        cases f.msk with
        | false => exact goOn (some x.1) none x.2
        | true =>
          simp only [Option.map_some, Prod.map, dinPop_blankGate]
          cases dinPop x.2 with
          | none => rfl
          | some y => exact goOn (some x.1) (some y.1) y.2

/-- A waiting command goes on without reading the gate or its sample. -/
theorem resume_blankGate (i : Instr) (s : State) : resume i (blankGate s) = blankGate (resume i s) := by
  cases i with
  | clr => rfl
  | pull | push | pullo | pusho | pullx | pushx | ksgen | ksxor | hupdate => exact iterate_blankGate _ s.seq.rc.toNat s
  | hfinal dsize len =>
    cases hd : s.din with
    | nil => rw [resume_hfinal_waits dsize len hd, resume_hfinal_waits dsize len (s := blankGate s) hd]
    | cons f rest => rw [resume_hfinal_done dsize len hd, resume_hfinal_done dsize len (s := blankGate s) hd]; rfl
  | setkey klen =>
    cases hd : s.din with
    | nil => rw [resume_setkey_waits klen hd, resume_setkey_waits klen (s := blankGate s) hd]
    | cons key rest => rw [resume_setkey_done klen hd, resume_setkey_done klen (s := blankGate s) hd]; rfl
  | resync ivp =>
    cases ivp with
    | false => rfl
    | true =>
      cases hd : s.din with
      | nil => rw [resume_resync_waits hd, resume_resync_waits (s := blankGate s) hd]
      | cons iv rest => rw [resume_resync_iv hd, resume_resync_iv (s := blankGate s) hd]; rfl

/-- A counted command runs the same rounds; on a blanked state it takes no sample. -/
theorem Counted.blankGate {s : State} {i : Instr} {f : Streams} {n : Nat} {fs : Option Bool} (h : Counted s i f n fs) :
    Counted (blankGate s) i f n none := by
  cases h <;> constructor

/-- A new command may sample the gate, and does its work without it. -/
theorem exec_blankGate {i : Instr} {s t : State} (h : exec i s = .next t) :
    exec i (blankGate s) = .next (blankGate t) := by
  cases exec_cases h with
  | counted hc => rw [exec_counted hc.blankGate, ← iterate_blankGate]; rfl
  | clr => exact exec_clr (blankGate s)
  | badSize len hl => exact exec_hfinal_refused len (blankGate s) hl
  | hfinalWaits len hl hd => exact exec_hfinal_waits len (blankGate s) hl hd
  | hfinal len f rest hl hd => exact exec_hfinal_done len (blankGate s) hl hd
  | badLength hl => exact exec_setkey_refused (blankGate s) hl
  | setkeyWaits hd => exact exec_setkey_waits (blankGate s) hd
  | setkey key rest hd => exact exec_setkey_done (blankGate s) hd
  | noKey ivp hkv => exact exec_resync_refused ivp (blankGate s) hkv
  | resyncWaits hkv hd => exact exec_resync_waits (blankGate s) hkv hd
  | resync iv rest hkv hd => exact exec_resync_iv (blankGate s) hkv hd
  | resyncZero hkv => exact exec_resync_no_iv (blankGate s) hkv

/-- A step of the blanked state takes the same branch and ends in the blanked next state. -/
theorem step_blankGate {s t : State} (h : step s = .next t) : step (blankGate s) = .next (blankGate t) := by
  cases step_cases h with
  | reset hr => exact step_of_reset (s := blankGate s) hr
  | resumed i hr hp => rw [step_of_busy (s := blankGate s) hr hp, resume_blankGate]
  | stutter hr hp hc => exact step_of_empty (s := blankGate s) hr hp hc
  | illegal w rest e hr hp hc hw => exact step_of_illegal (s := blankGate s) hr hp hc hw
  | command w rest i _ hr hp hc hw hexec =>
    exact (step_of_command (s := blankGate s) hr hp hc hw).trans (exec_blankGate hexec)

/-- Settles O56: both steps are the step of the one blanked state. -/
theorem fastPathIsUnobservable : Obligations.FastPathIsUnobservable := by
  intro s u t v hsu ht hv
  have hstep : step (blankGate s) = .next (blankGate v) := hsu ▸ step_blankGate hv
  exact Host.Outcome.next.inj ((step_blankGate ht).symm.trans hstep)

end Sys2Proof.Machine
end

section
/-! The fast path's round over the physical layout (44_fast_path R129, R133, R135): each part of the scalar round, seen by slot, is
the part of the fast round over the slots, since a distance of `d` slots is one of `4 * d` logical words mod 17. -/

namespace Sys2Proof.Machine

/-! Words by slot. -/

/-- The words of A, or of a state between two parts of the round, by physical slot (10_state R14). -/
def bySlot (a : Vector Word 17) : Vector Word 17 := Vector.ofFn fun t => a.get (logicalOf t)

theorem toPhys_eq (g : Engine) : toPhys g = { slots := bySlot g.a, b := g.b, p := g.p } := rfl

theorem bySlot_get (a : Vector Word 17) (t : Fin 17) : (bySlot a).get t = a.get (logicalOf t) := vector_get_ofFn _ t

theorem bySlot_get_slotOf (a : Vector Word 17) (i : Fin 17) : (bySlot a).get (slotOf i) = a.get i := by
  rw [bySlot_get, logicalOf_slotOf]

/-- `d` slots on is `4 * d` logical words on. -/
theorem logicalOf_add (t d : Fin 17) : logicalOf (t + d) = logicalOf t + 4 * d := by
  apply Fin.ext
  rw [Fin.val_add, Fin.val_mul, logicalOf_val, logicalOf_val, Fin.val_add]
  change _ = ((4 * t.val + 4) % 17 + 4 * d.val % 17) % 17
  omega

/-- The source of pi by slot is its source by logical index: `28 * (t - 4) + 4 = 7 * (4 * t + 4)` mod 17. -/
theorem logicalOf_piSource (t : Fin 17) : logicalOf (7 * (t - 4)) = 7 * logicalOf t := by
  revert t
  decide

/-! The parts of the round. -/

/-- The taps of gamma are 13 and 9 slots on: `4 * 13 = 1` and `4 * 9 = 2` mod 17. -/
theorem fastGamma_bySlot (a : Vector Word 17) : fastGamma (bySlot a) = bySlot (gamma a) :=
  vector_ext_get fun t => by
    have h1 : logicalOf (t + 13) = logicalOf t + 1 := logicalOf_add t 13
    have h2 : logicalOf (t + 9) = logicalOf t + 2 := logicalOf_add t 9
    rw [fastGamma, vector_get_ofFn, bySlot_get, bySlot_get, bySlot_get, bySlot_get, gamma_get, h1, h2]

theorem fastPi_bySlot (g : Vector Word 17) : fastPi (bySlot g) = bySlot (piStep g) :=
  vector_ext_get fun t => by
    rw [fastPi, vector_get_ofFn, bySlot_get, bySlot_get, piStep_get, logicalOf_piSource]

/-- The taps of theta are 13 slots on and the adjacent slot: `4 * 13 = 1` and `4 * 1 = 4`. -/
theorem fastTheta_bySlot (c : Vector Word 17) : fastTheta (bySlot c) = bySlot (theta c) :=
  vector_ext_get fun t => by
    have h1 : logicalOf (t + 13) = logicalOf t + 1 := logicalOf_add t 13
    have h4 : logicalOf (t + 1) = logicalOf t + 4 := logicalOf_add t 1
    rw [fastTheta, vector_get_ofFn, bySlot_get, bySlot_get, bySlot_get, bySlot_get, theta_get, h1, h4]

theorem fastSigma_bySlot (th : Vector Word 17) (b4 b16 : Stage) :
    fastSigma (bySlot th) b4 b16 = bySlot (sigma th b4 b16) :=
  vector_ext_get fun t => by
    rw [fastSigma, vector_get_ofFn, bySlot_get, bySlot_get, sigma, vector_get_ofFn]

/-! The round, its output, and any number of rounds. -/

theorem fastRound_toPhys (e : Endian) (g : Engine) : fastRound (toPhys g) = toPhys (roundEngine e none g) := by
  have hfeed : (Vector.ofFn fun i : Fin 8 => (bySlot g.a).get (slotOf ⟨i.val + 1, by omega⟩)) = feedWords g.a := by
    simp only [bySlot_get_slotOf, feedWords]
  simp only [fastRound, toPhys_eq, roundEngine_pull, fastGamma_bySlot, fastPi_bySlot, fastTheta_bySlot, fastSigma_bySlot,
    hfeed]

theorem fastOutput_toPhys (e : Endian) (msk : Option Block) (g : Engine) :
    fastOutput e msk (toPhys g) = roundOutput e msk g := by
  have hout : (Vector.ofFn fun i : Fin 8 => (bySlot g.a).get (slotOf ⟨i.val + 9, by omega⟩)) = outWords g.a := by
    simp only [bySlot_get_slotOf, outWords]
  cases msk with
  | none => exact congrArg (wordsBlock e) hout
  | some m => exact congrArg (xorBlock · m) (congrArg (wordsBlock e) hout)

theorem fastRounds_toPhys (e : Endian) (n : Nat) (g : Engine) :
    fastRounds n (toPhys g) = toPhys (blankRounds e n g) := by
  induction n generalizing g with
  | zero => rfl
  | succ n ih => rw [fastRounds, fastRound_toPhys e, ih, blankRounds, round_fst]

/-- Settles O57: the round and its output by parts, and rounds one after the other. -/
theorem fastPathRefinesScalarRound : Obligations.FastPathRefinesScalarRound :=
  ⟨fun e _ msk g => ⟨fastRound_toPhys e g, fastOutput_toPhys e msk g⟩, fastRounds_toPhys⟩

end Sys2Proof.Machine
end

section
/-! Errors in place of exceptions (60_exceptions R139 to R148): a command that fails its precondition appends its code and does
nothing else; a command that meets it answers `OK` or waits without a response. -/

namespace Sys2Proof.Machine

/-- A command's next state is that of its error, or it has answered `OK`, or it has not answered. -/
theorem exec_errored_or_ok_or_silent {i : Instr} {s t : State} (h : exec i s = .next t) :
    (∃ c, t = errored s c) ∨ t.resp = s.resp ++ [0#3] ∨ t.resp = s.resp := by
  cases exec_cases h with
  | @counted i f n fs hc =>
    obtain ⟨-, -, -, -, -, -, -, -, -, hend⟩ := iterate_spec f (n % 65536) (started i n fs s) (.inl rfl)
    rcases hend with ⟨-, hok⟩ | ⟨hsilent, -⟩
    · exact .inr (.inl hok)
    · exact .inr (.inr hsilent)
  | badSize | badLength | noKey => exact .inl ⟨_, rfl⟩
  | clr | hfinal | setkey | resync | resyncZero => exact .inr (.inl rfl)
  | hfinalWaits | setkeyWaits | resyncWaits => exact .inr (.inr rfl)

/-- Settles O51: of a command's three kinds of next state, only that of an error adds a code that is not `OK`. -/
theorem errorsLeaveNoTrace : Obligations.ErrorsLeaveNoTrace := by
  intro i s t c h hresp hc
  have hanswered : t.resp ≠ s.resp := by simp [hresp]
  rcases exec_errored_or_ok_or_silent h with ⟨c', rfl⟩ | hok | hsilent
  · have hcode : [c'] = [c] := List.append_cancel_left hresp
    rw [List.singleton_inj.1 hcode]
  · have hcode : [0#3] = [c] := List.append_cancel_left (hok.symm.trans hresp)
    exact absurd (List.singleton_inj.1 hcode).symm hc
  · exact absurd hsilent hanswered

theorem dsizeLegal_eq_false {dsize : Nat} (h : dsize = 0 ∨ 32 < dsize) : dsizeLegal dsize = false := by
  rw [← Bool.not_eq_true, dsizeLegal_iff]
  omega

theorem klenLegal_eq_false {klen : Nat} (h : klen ≠ 32) : klenLegal klen = false := decide_eq_false h

/-- Settles O38: the refusal of each of the three commands that have a precondition. -/
theorem preconditionsRefuse : Obligations.PreconditionsRefuse := fun s =>
  ⟨fun _ len hsize => exec_hfinal_refused len s (dsizeLegal_eq_false hsize),
    fun _ hlength => exec_setkey_refused s (klenLegal_eq_false hlength),
    fun ivp hkv => exec_resync_refused ivp s hkv⟩

end Sys2Proof.Machine
end

section
/-! Reset and waiting (70_reset_and_hazards R154, R156, R164). Rounds on an empty `din` wait at once, whatever is held; so a command
that runs out of blocks is its rounds with the blocks that were there, and then that wait. -/

namespace Sys2Proof.Machine

/-- Settles O10: whatever the phase, the step is hardware reset, which leaves the zero state. -/
theorem assertedResetResetsEverything : Obligations.AssertedResetResetsEverything :=
  fun s hr => ⟨hardwareReset s, step_of_reset hr, zeroEngine_a_get, zeroEngine_b_get, rfl, vector_get_replicate _,
    rfl, rfl, rfl, rfl, rfl, rfl, rfl, rfl⟩

/-- Settles O46: each command is latched on an empty `din` once its precondition holds. -/
theorem singleBlockCommandsWait : Obligations.SingleBlockCommandsWait := fun s hd =>
  ⟨fun dsize len h1 h32 => exec_hfinal_waits len s ((dsizeLegal_iff dsize).2 ⟨h1, h32⟩) hd,
    exec_setkey_waits s hd, fun hkv => exec_resync_waits s hkv hd⟩

/-! Rounds that find no block. -/

/-- A round that takes a block finds none on an empty `din`, but for the absorb block that may be held already. -/
theorem iterate_of_din_nil {f : Streams} {n : Nat} {s : State} (hpops : f.abs = true ∨ f.msk = true) (hn : 0 < n)
    (hheld : s.seq.held = none ∨ (f.abs = true ∧ f.msk = true)) (hd : s.din = []) :
    iterate f n s = waitBlock n s.seq.held s := by
  obtain ⟨m, rfl⟩ := Nat.exists_eq_add_of_lt hn
  have hnone : dinPop s = none := (dinPop_eq_none s).2 hd
  rw [iterate_succ]
  cases hq : s.seq.held with
  | none =>
    rw [takeAbsorb_of_none hq, hnone]
    rcases hpops with habs | hmsk
    · simp only [habs, if_true]
    · simp only [hmsk, if_true, ite_self]
  | some q =>
    obtain ⟨habs, hmsk⟩ := hheld.resolve_left (by simp [hq])
    have hnone' : dinPop { s with seq := { s.seq with held := none } } = none := (dinPop_eq_none _).2 hd
    rw [takeAbsorb_of_some hq, habs, hmsk]
    simp only [if_true, hnone']
    rfl

/-- A round of `PUSHX` that finds its absorb block only: the block is popped and held (20_memory R49). -/
theorem iterate_of_din_singleton {f : Streams} {n : Nat} {s : State} {q : Block} (habs : f.abs = true)
    (hmsk : f.msk = true) (hn : 0 < n) (hheld : s.seq.held = none) (hd : s.din = [q]) :
    iterate f n s = waitBlock n (some q) { s with din := [] } := by
  obtain ⟨m, rfl⟩ := Nat.exists_eq_add_of_lt hn
  rw [iterate_succ, takeAbsorb_of_none hheld, dinPop_of_cons hd, habs, hmsk]
  rfl

theorem waitBlock_self (s : State) : waitBlock s.seq.rc.toNat s.seq.held s = s := by
  rw [waitBlock, BitVec.ofNat_toNat, BitVec.setWidth_eq]

/-! A waiting command that still finds no block. -/

section
variable {s : State} {i : Instr} {f : Streams} {n : Nat} {fs : Option Bool}

/-- A counted command that can wait takes a block in each round. -/
theorem Counted.pops_of_waitOk (h : Counted s i f n fs) {t : State} (hw : WaitOk i t) :
    f.abs = true ∨ f.msk = true := by
  cases h with
  | pull | pullo | ksgen => exact hw.elim
  | push | pusho | pushx | hupdate => exact .inl rfl
  | pullx | ksxor => exact .inr rfl

theorem Counted.resume_of_din_nil (h : Counted s i f n fs) (hw : WaitOk i s) (hd : s.din = []) : resume i s = s := by
  obtain ⟨⟨hrc, -⟩, hheld⟩ := h.of_waitOk hw
  rw [resume_counted h, iterate_of_din_nil (h.pops_of_waitOk hw) hrc hheld hd, waitBlock_self]

end

theorem resume_of_din_nil {i : Instr} {s : State} (hw : WaitOk i s) (hd : s.din = []) : resume i s = s := by
  cases i with
  | clr | pull | pullo | ksgen => exact hw.elim
  | push n => exact (Counted.push n).resume_of_din_nil hw hd
  | pusho n => exact (Counted.pusho n).resume_of_din_nil hw hd
  | pullx n => exact (Counted.pullx n).resume_of_din_nil hw hd
  | pushx n => exact (Counted.pushx n).resume_of_din_nil hw hd
  | hupdate n => exact (Counted.hupdate n).resume_of_din_nil hw hd
  | ksxor n => exact (Counted.ksxor n).resume_of_din_nil hw hd
  | hfinal dsize len => exact resume_hfinal_waits dsize len hd
  | setkey klen => exact resume_setkey_waits klen hd
  | resync ivp =>
    obtain ⟨rfl, -⟩ := hw
    exact resume_resync_waits hd

/-- Settles O48: a busy block's step is the rest of its command, which the invariant lets wait. -/
theorem waitingStepChangesNothing : Obligations.WaitingStepChangesNothing := by
  intro s i hs hr hp hd
  obtain ⟨-, hw⟩ := hs.latched hp
  rw [step_of_busy hr hp, resume_of_din_nil hw hd]

/-! A streaming command that runs out of blocks. -/

section
variable {s : State} {i : Instr} {f : Streams} {n : Nat} {fs : Option Bool}

/-- Rounds that take an absorb block each. -/
theorem Counted.exec_pushRounds_waits {qs : List Block} (h : Counted s i f n fs) (ha : f.abs = true)
    (hm : f.msk = false) (hn : n < 65536) (hlen : qs.length < n) (hd : s.din = qs) :
    exec i s = .next (waiting s (pushAll s.endian qs s.eng)
      (if f.out then fullEntries (pushOutputs s.endian qs s.eng) else [])
      ⟨.busy i, BitVec.ofNat 16 (n - qs.length), none, fs⟩) := by
  have hrun := iterate_push f ha hm (n - qs.length) qs [] (started i n fs s) rfl (hd.trans (List.append_nil qs).symm)
  rw [Nat.add_sub_cancel' hlen.le, iterate_of_din_nil (.inl ha) (Nat.sub_pos_of_lt hlen) (.inl rfl) rfl] at hrun
  rw [exec_counted h, Nat.mod_eq_of_lt hn, hrun]
  rfl

/-- Rounds that take a mask block each. -/
theorem Counted.exec_maskedPullRounds_waits {ms : List Block} (h : Counted s i f n fs) (ha : f.abs = false)
    (ho : f.out = true) (hm : f.msk = true) (hn : n < 65536) (hlen : ms.length < n) (hd : s.din = ms) :
    exec i s = .next (waiting s (blankRounds s.endian ms.length s.eng)
      (fullEntries (List.zipWith xorBlock (keystream s.endian ms.length s.eng) ms))
      ⟨.busy i, BitVec.ofNat 16 (n - ms.length), none, fs⟩) := by
  have hrun := iterate_mask f ha ho hm (n - ms.length) ms [] (started i n fs s) (hd.trans (List.append_nil ms).symm)
  rw [Nat.add_sub_cancel' hlen.le, iterate_of_din_nil (.inr hm) (Nat.sub_pos_of_lt hlen) (.inl rfl) rfl] at hrun
  rw [exec_counted h, Nat.mod_eq_of_lt hn, hrun]
  rfl

/-- Rounds that take an absorb block and then a mask block each: the odd block is the absorb block of the next round. -/
theorem Counted.exec_maskedPushRounds_waits {qms : List (Block × Block)} {odd : Option Block} (h : Counted s i f n fs)
    (ha : f.abs = true) (ho : f.out = true) (hm : f.msk = true) (hn : n < 65536) (hlen : qms.length < n)
    (hd : s.din = interleave qms ++ odd.toList) :
    exec i s = .next (waiting s (pushAll s.endian (qms.map Prod.fst) s.eng)
      (fullEntries (List.zipWith xorBlock (pushOutputs s.endian (qms.map Prod.fst) s.eng) (qms.map Prod.snd)))
      ⟨.busy i, BitVec.ofNat 16 (n - qms.length), odd, fs⟩) := by
  have hleft : 0 < n - qms.length := Nat.sub_pos_of_lt hlen
  have hrun := iterate_push_mask f ha ho hm (n - qms.length) qms odd.toList (started i n fs s) rfl hd
  rw [Nat.add_sub_cancel' hlen.le] at hrun
  rw [exec_counted h, Nat.mod_eq_of_lt hn, hrun]
  cases odd with
  | none => rw [iterate_of_din_nil (.inl ha) hleft (.inl rfl) rfl]; rfl
  | some q => rw [iterate_of_din_singleton ha hm hleft rfl rfl]; rfl

end

/-- Settles O45: a streaming command waits as its streams do; only KSXOR holds a sample of the gate. -/
theorem streamingCommandsWait : Obligations.StreamingCommandsWait :=
  ⟨fun _ n _ hn hlen hd =>
    ⟨(Counted.push n).exec_pushRounds_waits rfl rfl hn hlen hd,
      (Counted.hupdate n).exec_pushRounds_waits rfl rfl hn hlen hd,
      (Counted.pusho n).exec_pushRounds_waits rfl rfl hn hlen hd,
      (Counted.pullx n).exec_maskedPullRounds_waits rfl rfl rfl hn hlen hd,
      (Counted.ksxor n).exec_maskedPullRounds_waits rfl rfl rfl hn hlen hd⟩,
    fun _ _ n _ hn hlen hd => (Counted.pushx n).exec_maskedPushRounds_waits rfl rfl rfl hn hlen hd⟩

end Sys2Proof.Machine
end
